-- ==== Sys2Proof/Word.lean ====
section
/-!
DEFINITION. The word types of rule R8 (00_scope.md) and the direction type of rule R9 (00_scope.md).

Arithmetic is done on `Nat` and `Int` and narrowed at the end by a wrap function, as rule R8 prescribes.
-/

namespace Sys2Proof

/-- Rule R8 `u32`, as command and response words carry it; its number is `toNat`. -/
abbrev U32 := BitVec 32

/-- Rule R8 `s32`, as command words carry it; its number is `toInt`. -/
abbrev S32 := BitVec 32

/-- Rule R8 `wrap_s32` and `wrap_s64`: the two's complement value congruent to `x` modulo `2^w`. A width other than 32
and 64 is the model's: DESIGN CHOICE (log 13). -/
abbrev wrapS (w : Nat) (x : Int) : BitVec w := BitVec.ofInt w x

/-- Rule R9: a direction, one of `Clockwise`, `CounterClockwise`, `None`. The reserved 2-bit code `0b10` is
no direction, so it has no constructor here. -/
inductive Dir where
  | clockwise
  | counterClockwise
  | none
deriving DecidableEq, Repr

end Sys2Proof
end

