-- ==== Sys2Proof/Config.lean ====
section
/-!
DEFINITION. The implementation parameters of rule R5 (00_scope.md), as the configuration record that rule asks
for, and the model's free values. Every definition of the machine is for any value of the parameters.
-/

namespace Sys2Proof

/-- Rule R5: the parameters of a block with `nch` channels, registers of `w` bits and link accumulators of `we` bits.
The state of a block is indexed by its parameters. -/
structure Params (nch w we : Nat) where
  /-- `TIMER_RESOLUTION`: clock ticks per second. -/
  timerResolution : Nat
  /-- `K_NUM`, the numerator of the constant `k` of the starting-delay formula. -/
  kNum : Nat
  /-- `K_DEN`, the denominator of `k`. -/
  kDen : Nat
  /-- `RESET_SPR`: steps per revolution after reset. -/
  resetSpr : BitVec w
  /-- `RESET_MINRPM`: minimum RPM after reset. -/
  resetMinrpm : BitVec w
  /-- `RESET_MAXRPM`: maximum RPM after reset. -/
  resetMaxrpm : BitVec w
  /-- `RESET_ACCEL`: acceleration in RPM per second after reset. -/
  resetAccel : BitVec w
  /-- `CountOf(rpm, spr)`. -/
  countOf : BitVec w → BitVec w → BitVec w
  /-- `ZeroCountOf(spr, accel)`. -/
  zeroCountOf : BitVec w → BitVec w → BitVec w

/-- Rule R5: the configuration record, all parameters as fields. -/
structure Config where
  /-- `NCH`: number of channels. -/
  nch : Nat
  /-- `W`: width in bits of counts, ramp indices, timestamps, distances and positions. -/
  w : Nat
  /-- `WE`: width in bits of the link's error accumulator. -/
  we : Nat
  /-- The other parameters, whose types depend on the three above. -/
  params : Params nch w we

/-- The channel numbers of a block with these parameters: `0 .. NCH - 1` (rule R20). -/
abbrev Params.Chan {nch w we : Nat} (_ : Params nch w we) : Type := Fin nch

/-- The configuration record of a block with these parameters. -/
def Params.config {nch w we : Nat} (par : Params nch w we) : Config := ⟨nch, w, we, par⟩

/-- DESIGN CHOICE (log 5), safe. A free value: what `CountOf(rpm, spr)` is when an argument is 0, which rule R176
does not state. No run from reset applies it. -/
opaque Config.unstatedCount : (w : Nat) → BitVec w → BitVec w → BitVec w

/-- DESIGN CHOICE (log 5), safe. A free value: what `ZeroCountOf(spr, accel)` is when an argument is 0, which rule
R177 does not state. No run from reset applies it. -/
opaque Config.unstatedZeroCount : (w : Nat) → BitVec w → BitVec w → BitVec w

/-- DESIGN CHOICE (log 14), safe. A free value: the constant of rule R177 where `K_NUM * TIMER_RESOLUTION / K_DEN` is no
whole number, which U4 does not round, or `K_DEN` is 0. The parameters of this platform do not apply it. -/
opaque Config.unstatedScale : (timerResolution kNum kDen : Nat) → Nat

/-- DESIGN CHOICE (log 6), safe. A free value: the secondary of channel `c` where `NCH` is not 2, which rule R10 does
not state. The block of this platform does not apply it. -/
opaque Config.unstatedOther : (nch c : Nat) → Nat

end Sys2Proof
end

