-- ==== Sys2Proof/Machine/Convert.lean ====
section
/-!
DEFINITION. The unit conversions of rules R175 to R177 (44_config_and_access.md), on mathematical integers, and the
parameters of this platform (rule R5, 00_scope.md).
-/

namespace Sys2Proof.Machine

/-- The `k` low binary digits of a root, from the top one down, below the digits `r` already found. -/
def isqrtDigits : Nat → Nat → Nat → Nat
  | 0, _, r => r
  | k + 1, x, r =>
    if (r + 2 ^ k) * (r + 2 ^ k) ≤ x then isqrtDigits k x (r + 2 ^ k) else isqrtDigits k x r

/-- Rule R175 `isqrt`: the largest `r` with `r * r <= x`, digit by digit. -/
def isqrt (x : Nat) : Nat := isqrtDigits (Nat.log2 x / 2 + 1) x 0

/-- Rule R176: ticks per minute, `60 * TIMER_RESOLUTION`. -/
def ticksPerMinute (timerResolution : Nat) : Nat := 60 * timerResolution

/-- Rule R177 and 93_implementation_defined.md U4: the constant `(K_NUM * TIMER_RESOLUTION / K_DEN)^2 * 120`, where the
quotient is a whole number. U4 states no rounding for another quotient: DESIGN CHOICE (log 14), safe, a free value. -/
def zeroCountScale (timerResolution kNum kDen : Nat) : Nat :=
  if 0 < kDen ∧ kNum * timerResolution % kDen = 0 then (kNum * timerResolution / kDen) ^ 2 * 120
  else Config.unstatedScale timerResolution kNum kDen

variable {w : Nat}

/-- The clamp `max(1, min(2^32 - 1, x))` of rules R176 and R177, as a register value. For `w` other than 32 the bound
`2^w - 1` in the place of `2^32 - 1` is the model's: DESIGN CHOICE (log 13). -/
def clampCount (x : Nat) : BitVec w := BitVec.ofNat w (max 1 (min (2 ^ w - 1) x))

/-- Rule R176, the reference definition of `CountOf(rpm, spr)`, for `rpm >= 1` and `spr >= 1`. With an argument of 0
the rule states no value (log 5). -/
def referenceCountOf (timerResolution : Nat) (rpm spr : BitVec w) : BitVec w :=
  if rpm = 0#w ∨ spr = 0#w then Config.unstatedCount w rpm spr
  else clampCount (ticksPerMinute timerResolution / (rpm.toNat * spr.toNat))

/-- Rule R177, the reference definition of `ZeroCountOf(spr, accel)`, for `spr >= 1` and `accel >= 1`. With an
argument of 0 the rule states no value (log 5). -/
def referenceZeroCountOf (timerResolution kNum kDen : Nat) (spr accel : BitVec w) : BitVec w :=
  if spr = 0#w ∨ accel = 0#w then Config.unstatedZeroCount w spr accel
  else clampCount (isqrt (zeroCountScale timerResolution kNum kDen / (spr.toNat * accel.toNat)))

end Sys2Proof.Machine

namespace Sys2Proof

/-- Rules R175 to R177: parameters whose conversion functions are the reference definitions at the platform's own
clock and `k`. -/
def Params.reference {nch w we : Nat} (timerResolution kNum kDen : Nat)
    (resetSpr resetMinrpm resetMaxrpm resetAccel : BitVec w) : Params nch w we where
  timerResolution := timerResolution
  kNum := kNum
  kDen := kDen
  resetSpr := resetSpr
  resetMinrpm := resetMinrpm
  resetMaxrpm := resetMaxrpm
  resetAccel := resetAccel
  countOf := Machine.referenceCountOf timerResolution
  zeroCountOf := Machine.referenceZeroCountOf timerResolution kNum kDen

/-- Rule R5: the value the spec gives each parameter. `NCH = 2`, `W = 32` and `WE = 64` stand in the type. -/
def Params.platform : Params 2 32 64 :=
  .reference (timerResolution := 1000000) (kNum := 676) (kDen := 1000)
    (resetSpr := 200#32) (resetMinrpm := 30#32) (resetMaxrpm := 300#32) (resetAccel := 600#32)

/-- Rule R5: the configuration record with the values the spec gives. -/
def Config.platform : Config := Params.platform.config

end Sys2Proof
end

