-- ==== Sys2Proof/Syntax.lean ====
section
/-!
DEFINITION. The commands of rule R84 (30_encoding.md), one constructor per row of the opcode table, with the
operands of rules R81 and R83; and the pseudo-operations of rule R89.

A channel number is legal by its type. The direction code of RUNCONST and the register index of RDREG are kept as
the encoding has them, since their reserved values are illegal commands of their own (rule R202, causes 4 and 5):
`Instr.wellFormed` holds the two checks.
-/

namespace Sys2Proof

/-- A channel number of this platform. Rule R20: the block holds `NCH = 2` channels, numbered 0 and 1. -/
abbrev Chan : Type := Params.platform.Chan

/-- Rule R84: the operations of the block. -/
inductive Instr where
  /-- `NOP c` -/
  | nop (c : Chan)
  /-- `SEEDIDLE c` -/
  | seedidle (c : Chan)
  /-- `ACCEL c, keep`: `keep` is the `keepComputing` argument, `ARG[0]`. -/
  | accel (c : Chan) (keep : Bool)
  /-- `DECEL c, keep` -/
  | decel (c : Chan) (keep : Bool)
  /-- `SETDIST c, steps` -/
  | setdist (c : Chan) (steps : S32)
  /-- `RUN c` -/
  | run (c : Chan)
  /-- `SCHEDSTEP c` -/
  | schedstep (c : Chan)
  /-- `RUNCONST c, d`: `d` is the direction code, `ARG[1:0]`. -/
  | runconst (c : Chan) (d : BitVec 2)
  /-- `ISRUNNING c` -/
  | isrunning (c : Chan)
  /-- `ATTARGET c` -/
  | attarget (c : Chan)
  /-- `ISACTIVE c` -/
  | isactive (c : Chan)
  /-- `WAKEUP c` -/
  | wakeup (c : Chan)
  /-- `RELEASE c` -/
  | release (c : Chan)
  /-- `SYNC c, target` -/
  | sync (c : Chan) (target : S32)
  /-- `ENDSYNC c` -/
  | endsync (c : Chan)
  /-- `REFERENCING c` -/
  | referencing (c : Chan)
  /-- `SETSPR c, v` -/
  | setspr (c : Chan) (v : U32)
  /-- `SETMINRPM c, v` -/
  | setminrpm (c : Chan) (v : U32)
  /-- `SETMAXRPM c, v` -/
  | setmaxrpm (c : Chan) (v : U32)
  /-- `SETACCEL c, v` -/
  | setaccel (c : Chan) (v : U32)
  /-- `RDREG c, i`: `i` is the register index, `ARG`. -/
  | rdreg (c : Chan) (i : BitVec 8)
  /-- `WRPOS c, v` -/
  | wrpos (c : Chan) (v : S32)
deriving DecidableEq, Repr

/-- Rule R80 `CH`: the channel a command addresses. -/
def Instr.chan : Instr → Chan
  | .nop c | .seedidle c | .accel c _ | .decel c _ | .setdist c _ | .run c | .schedstep c | .runconst c _
  | .isrunning c | .attarget c | .isactive c | .wakeup c | .release c | .sync c _ | .endsync c | .referencing c
  | .setspr c _ | .setminrpm c _ | .setmaxrpm c _ | .setaccel c _ | .rdreg c _ | .wrpos c _ => c

/-- Rule R89: `POLL c` is `RUN c`. -/
abbrev Instr.poll (c : Chan) : Instr := .run c

/-- Rule R89: `HOME c` is `REFERENCING c`. -/
abbrev Instr.home (c : Chan) : Instr := .referencing c

/-- Rule R89: `JOGSTOP c` is `RUNCONST c, NONE`. -/
abbrev Instr.jogstop (c : Chan) : Instr := .runconst c 0b00#2

/-- Rule R89: `RDPOS c` is `RDREG c, POSITION`. -/
abbrev Instr.rdpos (c : Chan) : Instr := .rdreg c 1#8

/-- Rule R89: `RDSTATUS c` is `RDREG c, STATUS`. -/
abbrev Instr.rdstatus (c : Chan) : Instr := .rdreg c 27#8

end Sys2Proof
end

