-- ==== Sys2Proof/WellFormed.lean ====
section
/-!
DEFINITION. The value-dependent legality checks of rule R85 (30_encoding.md): for RUNCONST the direction code is
not `0b10`; for RDREG the index is at most 27.
-/

namespace Sys2Proof

/-- Rule R85: the operand values with which the instruction is a legal command. -/
def Instr.wellFormed : Instr → Bool
  | .runconst _ d => d != 0b10#2
  | .rdreg _ i => i.toNat ≤ 27
  | .nop _ | .seedidle _ | .accel _ _ | .decel _ _ | .setdist _ _ | .run _ | .schedstep _ | .isrunning _
  | .attarget _ | .isactive _ | .wakeup _ | .release _ | .sync _ _ | .endsync _ | .referencing _ | .setspr _ _
  | .setminrpm _ _ | .setmaxrpm _ _ | .setaccel _ _ | .wrpos _ _ => true

end Sys2Proof
end

