-- ==== Sys2Proof/Decode.lean ====
section
/-!
DEFINITION. The command decoder and the encoder, from rules R80 to R86 (30_encoding.md) and rules R202, R204
(60_exceptions.md). Decoding is total on 64-bit words: a word is an instruction or an illegal command with its
cause.
-/

namespace Sys2Proof

/-- Rule R202: the causes of an illegal command. -/
inductive IllegalCause where
  /-- 1, `ILL_OPCODE`: `OP` is not one of the 22 opcodes. -/
  | opcode
  /-- 2, `ILL_CHANNEL`: `CH >= NCH`. -/
  | channel
  /-- 3, `ILL_RESERVED`: `RSV`, an unused `ARG` bit or an unused `IMM` is not 0. -/
  | reserved
  /-- 4, `ILL_DIRECTION`: RUNCONST with the direction code `0b10`. -/
  | direction
  /-- 5, `ILL_REGINDEX`: RDREG with an index above 27. -/
  | regindex
deriving DecidableEq, Repr

/-- Rule R202: the code of a cause. -/
def IllegalCause.code : IllegalCause → U32
  | .opcode => 1#32
  | .channel => 2#32
  | .reserved => 3#32
  | .direction => 4#32
  | .regindex => 5#32

/-- Rule R81: the forms of the small argument `ARG`. -/
inductive ArgForm where
  | none
  | keep
  | dir
  | index
deriving DecidableEq, Repr

/-- Rules R81 and R202: the `ARG` bits a form does not use, which must be 0. -/
def ArgForm.unusedBits : ArgForm → BitVec 8
  | .none => 0xFF#8
  | .keep => 0xFE#8
  | .dir => 0xFC#8
  | .index => 0x00#8

/-- The mnemonics of rule R84. -/
inductive Opcode where
  | nop | seedidle | accel | decel | setdist | run | schedstep | runconst | isrunning | attarget | isactive
  | wakeup | release | sync | endsync | referencing | setspr | setminrpm | setmaxrpm | setaccel | rdreg | wrpos
deriving DecidableEq, Repr

/-- The 22 opcodes in the order of rule R84. -/
def Opcode.all : List Opcode :=
  [.nop, .seedidle, .accel, .decel, .setdist, .run, .schedstep, .runconst, .isrunning, .attarget, .isactive,
   .wakeup, .release, .sync, .endsync, .referencing, .setspr, .setminrpm, .setmaxrpm, .setaccel, .rdreg, .wrpos]

/-- Rule R84, column `OP`. -/
def Opcode.byte : Opcode → BitVec 8
  | .nop => 0x00#8
  | .seedidle => 0x10#8
  | .accel => 0x11#8
  | .decel => 0x12#8
  | .setdist => 0x20#8
  | .run => 0x21#8
  | .schedstep => 0x22#8
  | .runconst => 0x23#8
  | .isrunning => 0x24#8
  | .attarget => 0x25#8
  | .isactive => 0x26#8
  | .wakeup => 0x27#8
  | .release => 0x28#8
  | .sync => 0x30#8
  | .endsync => 0x31#8
  | .referencing => 0x40#8
  | .setspr => 0x50#8
  | .setminrpm => 0x51#8
  | .setmaxrpm => 0x52#8
  | .setaccel => 0x53#8
  | .rdreg => 0x60#8
  | .wrpos => 0x61#8

/-- Rule R84, column `ARG` form. -/
def Opcode.argForm : Opcode → ArgForm
  | .accel | .decel => .keep
  | .runconst => .dir
  | .rdreg => .index
  | .nop | .seedidle | .setdist | .run | .schedstep | .isrunning | .attarget | .isactive | .wakeup | .release
  | .sync | .endsync | .referencing | .setspr | .setminrpm | .setmaxrpm | .setaccel | .wrpos => .none

/-- Rule R84, column `IMM`; rule R202: the opcodes that use `IMM`. -/
def Opcode.usesImm : Opcode → Bool
  | .setdist | .sync | .wrpos | .setspr | .setminrpm | .setmaxrpm | .setaccel => true
  | .nop | .seedidle | .accel | .decel | .run | .schedstep | .runconst | .isrunning | .attarget | .isactive
  | .wakeup | .release | .endsync | .referencing | .rdreg => false

/-- Rule R84, column `match`. -/
def Opcode.matchWord : Opcode → BitVec 64
  | .nop => 0x0000000000000000#64
  | .seedidle => 0x1000000000000000#64
  | .accel => 0x1100000000000000#64
  | .decel => 0x1200000000000000#64
  | .setdist => 0x2000000000000000#64
  | .run => 0x2100000000000000#64
  | .schedstep => 0x2200000000000000#64
  | .runconst => 0x2300000000000000#64
  | .isrunning => 0x2400000000000000#64
  | .attarget => 0x2500000000000000#64
  | .isactive => 0x2600000000000000#64
  | .wakeup => 0x2700000000000000#64
  | .release => 0x2800000000000000#64
  | .sync => 0x3000000000000000#64
  | .endsync => 0x3100000000000000#64
  | .referencing => 0x4000000000000000#64
  | .setspr => 0x5000000000000000#64
  | .setminrpm => 0x5100000000000000#64
  | .setmaxrpm => 0x5200000000000000#64
  | .setaccel => 0x5300000000000000#64
  | .rdreg => 0x6000000000000000#64
  | .wrpos => 0x6100000000000000#64

/-- Rule R84, column `mask`. -/
def Opcode.maskWord : Opcode → BitVec 64
  | .setdist | .sync | .setspr | .setminrpm | .setmaxrpm | .setaccel | .wrpos => 0xFFFEFFFF00000000#64
  | .accel | .decel => 0xFFFEFEFFFFFFFFFF#64
  | .runconst => 0xFFFEFCFFFFFFFFFF#64
  | .rdreg => 0xFFFE00FFFFFFFFFF#64
  | .nop | .seedidle | .run | .schedstep | .isrunning | .attarget | .isactive | .wakeup | .release | .endsync
  | .referencing => 0xFFFEFFFFFFFFFFFF#64

/-! The fields of a command word, rule R80. -/

/-- Bits 63:56, the operation code. -/
def fieldOp (w : BitVec 64) : BitVec 8 := w.extractLsb' 56 8

/-- Bits 55:48, the channel number. -/
def fieldCh (w : BitVec 64) : BitVec 8 := w.extractLsb' 48 8

/-- Bits 47:40, the small argument. -/
def fieldArg (w : BitVec 64) : BitVec 8 := w.extractLsb' 40 8

/-- Bits 39:32, reserved. -/
def fieldRsv (w : BitVec 64) : BitVec 8 := w.extractLsb' 32 8

/-- Bits 31:0, the immediate. -/
def fieldImm (w : BitVec 64) : BitVec 32 := w.extractLsb' 0 32

/-- The opcode an `OP` byte names; rule R86: every other value is reserved. -/
def Opcode.ofByte (b : BitVec 8) : Option Opcode := Opcode.all.find? (fun op => op.byte == b)

/-- The channel a `CH` byte names; rule R202, cause 2: a value of at least `NCH` names none. -/
def chanOfByte {nch : Nat} (b : BitVec 8) : Option (Fin nch) :=
  if h : b.toNat < nch then some ⟨b.toNat, h⟩ else none

/-- Rule R80: the `CH` byte of a channel. The byte has room for at most 256 channels (log 6). -/
def chanByte {nch : Nat} (c : Fin nch) : BitVec 8 := BitVec.ofNat 8 c

/-- Rule R202, cause 3: a reserved or unused bit of the word is 1. -/
def reservedBitSet (op : Opcode) (w : BitVec 64) : Bool :=
  fieldRsv w != 0#8 || (fieldArg w &&& op.argForm.unusedBits) != 0#8 || (!op.usesImm && fieldImm w != 0#32)

/-- Rule R83: the operands assembled from `CH`, `ARG` and `IMM`. -/
def Opcode.assemble (op : Opcode) (c : Chan) (arg : BitVec 8) (imm : BitVec 32) : Instr :=
  match op with
  | .nop => .nop c
  | .seedidle => .seedidle c
  | .accel => .accel c (arg.getLsbD 0)
  | .decel => .decel c (arg.getLsbD 0)
  | .setdist => .setdist c imm
  | .run => .run c
  | .schedstep => .schedstep c
  | .runconst => .runconst c (arg.extractLsb' 0 2)
  | .isrunning => .isrunning c
  | .attarget => .attarget c
  | .isactive => .isactive c
  | .wakeup => .wakeup c
  | .release => .release c
  | .sync => .sync c imm
  | .endsync => .endsync c
  | .referencing => .referencing c
  | .setspr => .setspr c imm
  | .setminrpm => .setminrpm c imm
  | .setmaxrpm => .setmaxrpm c imm
  | .setaccel => .setaccel c imm
  | .rdreg => .rdreg c arg
  | .wrpos => .wrpos c imm

/-- Rule R202, causes 4 and 5, the last checks of rule R204: why the operand value of an instruction is illegal,
if it is. -/
def Instr.illegalOperand : Instr → Option IllegalCause
  | .runconst _ d => if d = 0b10#2 then some .direction else none
  | .rdreg _ i => if 27 < i.toNat then some .regindex else none
  | .nop _ | .seedidle _ | .accel _ _ | .decel _ _ | .setdist _ _ | .run _ | .schedstep _ | .isrunning _
  | .attarget _ | .isactive _ | .wakeup _ | .release _ | .sync _ _ | .endsync _ | .referencing _ | .setspr _ _
  | .setminrpm _ _ | .setmaxrpm _ _ | .setaccel _ _ | .wrpos _ _ => none

/-- Rules R85 and R204: strict decoding, the checks in the order of the cause codes, the first that fails
reported. -/
def decode (w : BitVec 64) : Except IllegalCause Instr :=
  match Opcode.ofByte (fieldOp w) with
  | none => .error .opcode
  | some op =>
    match (chanOfByte (fieldCh w) : Option Chan) with
    | none => .error .channel
    | some c =>
      if reservedBitSet op w then .error .reserved
      else
        match (op.assemble c (fieldArg w) (fieldImm w)).illegalOperand with
        | some cause => .error cause
        | none => .ok (op.assemble c (fieldArg w) (fieldImm w))

/-- The row of rule R84 an instruction belongs to. -/
def Instr.opcode : Instr → Opcode
  | .nop _ => .nop
  | .seedidle _ => .seedidle
  | .accel _ _ => .accel
  | .decel _ _ => .decel
  | .setdist _ _ => .setdist
  | .run _ => .run
  | .schedstep _ => .schedstep
  | .runconst _ _ => .runconst
  | .isrunning _ => .isrunning
  | .attarget _ => .attarget
  | .isactive _ => .isactive
  | .wakeup _ => .wakeup
  | .release _ => .release
  | .sync _ _ => .sync
  | .endsync _ => .endsync
  | .referencing _ => .referencing
  | .setspr _ _ => .setspr
  | .setminrpm _ _ => .setminrpm
  | .setmaxrpm _ _ => .setmaxrpm
  | .setaccel _ _ => .setaccel
  | .rdreg _ _ => .rdreg
  | .wrpos _ _ => .wrpos

/-- Rule R81: the `ARG` byte of an instruction. -/
def Instr.argByte : Instr → BitVec 8
  | .accel _ keep | .decel _ keep => if keep then 1#8 else 0#8
  | .runconst _ d => d.setWidth 8
  | .rdreg _ i => i
  | .nop _ | .seedidle _ | .setdist _ _ | .run _ | .schedstep _ | .isrunning _ | .attarget _ | .isactive _
  | .wakeup _ | .release _ | .sync _ _ | .endsync _ | .referencing _ | .setspr _ _ | .setminrpm _ _
  | .setmaxrpm _ _ | .setaccel _ _ | .wrpos _ _ => 0#8

/-- Rule R83: the `IMM` word of an instruction. -/
def Instr.immWord : Instr → BitVec 32
  | .setdist _ v | .sync _ v | .setspr _ v | .setminrpm _ v | .setmaxrpm _ v | .setaccel _ v | .wrpos _ v => v
  | .nop _ | .seedidle _ | .accel _ _ | .decel _ _ | .run _ | .schedstep _ | .runconst _ _ | .isrunning _
  | .attarget _ | .isactive _ | .wakeup _ | .release _ | .endsync _ | .referencing _ | .rdreg _ _ => 0#32

/-- Rule R80: the command word of the five fields. -/
def commandWord (op ch arg rsv : BitVec 8) (imm : BitVec 32) : BitVec 64 := op ++ ch ++ arg ++ rsv ++ imm

/-- The command word of an instruction, from the same tables as the decoder. -/
def encode (i : Instr) : BitVec 64 := commandWord i.opcode.byte (chanByte i.chan) i.argByte 0#8 i.immWord

/-! The notation of rule R88. -/

/-- Rule R84, column `mnemonic`. -/
def Opcode.mnemonic : Opcode → String
  | .nop => "NOP"
  | .seedidle => "SEEDIDLE"
  | .accel => "ACCEL"
  | .decel => "DECEL"
  | .setdist => "SETDIST"
  | .run => "RUN"
  | .schedstep => "SCHEDSTEP"
  | .runconst => "RUNCONST"
  | .isrunning => "ISRUNNING"
  | .attarget => "ATTARGET"
  | .isactive => "ISACTIVE"
  | .wakeup => "WAKEUP"
  | .release => "RELEASE"
  | .sync => "SYNC"
  | .endsync => "ENDSYNC"
  | .referencing => "REFERENCING"
  | .setspr => "SETSPR"
  | .setminrpm => "SETMINRPM"
  | .setmaxrpm => "SETMAXRPM"
  | .setaccel => "SETACCEL"
  | .rdreg => "RDREG"
  | .wrpos => "WRPOS"

/-- Rule R185, column name, index 0 first. -/
def regNames : List String :=
  ["DISTANCE", "POSITION", "DIRECTION", "ACTIVE", "CURCOUNT", "NEXTCOUNT", "RAMPSTEP", "RAMPFLOOR", "COMPDUE",
   "LASTEDGE", "JOGDIST", "HFIRST", "HSTATE", "CFG_SPR", "CFG_MINRPM", "CFG_MAXRPM", "CFG_ACCEL", "ZEROCOUNT",
   "MINCOUNT", "MAXCOUNT", "LINK_ATTACHED", "LINK_MAJOR", "LINK_MINOR", "LINK_ERR_LO", "LINK_ERR_HI", "LINK_SIGN",
   "LINK_TARGET", "STATUS"]

/-- Rule R88: how a bit is written. -/
def bitText (b : Bool) : String := if b then "1" else "0"

/-- Rule R88: a signed decimal. -/
def signedText (v : S32) : String :=
  if v.toInt < 0 then "-" ++ Nat.repr v.toInt.natAbs else Nat.repr v.toInt.natAbs

/-- Rule R88: the operand after the channel, with the comma before it; the empty text for a command without one,
`none` for an operand value without a name (a reserved direction code or register index). -/
def Instr.operandText : Instr → Option String
  | .setdist _ v | .sync _ v | .wrpos _ v => some (", " ++ signedText v)
  | .setspr _ v | .setminrpm _ v | .setmaxrpm _ v | .setaccel _ v => some (", " ++ Nat.repr v.toNat)
  | .accel _ keep | .decel _ keep => some (", " ++ bitText keep)
  | .runconst _ d =>
    if d = 0b00#2 then some ", NONE" else if d = 0b01#2 then some ", CCW"
    else if d = 0b11#2 then some ", CW" else none
  | .rdreg _ i => (regNames[i.toNat]?).map (", " ++ ·)
  | .nop _ | .seedidle _ | .run _ | .schedstep _ | .isrunning _ | .attarget _ | .isactive _ | .wakeup _
  | .release _ | .endsync _ | .referencing _ => some ""

/-- Rule R88: `MNEMONIC c` or `MNEMONIC c, operand`; `none` for an ill-formed instruction, which has no spelling. -/
def Instr.text (i : Instr) : Option String :=
  i.operandText.map (i.opcode.mnemonic ++ " " ++ Nat.repr i.chan.val ++ ·)

/-- Rule R88: a line of a listing with environment inputs; only REFERENCING shows the sense reading. -/
def Instr.listing (i : Instr) (now : U32) (sense : Bool) : Option String :=
  i.text.map (· ++ " @ now=" ++ Nat.repr now.toNat ++
    (if i.opcode = .referencing then " sense=" ++ bitText sense else ""))

/-- The instruction the decoder reads from the word `w` of `nbits` bits. Every row of the opcode table is one
64-bit word (rule R80), so there is nothing to lay out. -/
def decodeTableWord (nbits w : Nat) : Option Instr :=
  match decode (BitVec.ofNat 64 (w % 2 ^ nbits)) with
  | .ok i => some i
  | .error _ => none

end Sys2Proof
end

