-- ==== Sys2Proof/Machine/State.lean ====
section
/-!
DEFINITION. The state of the block: the registers of its channels (10_state.md, rules R20 to R47), and the ports of
20_memory.md (rules R62 to R65) as the model's own plain data: what the host has still to present, the readings
sampled for the command under execution, and the outputs of the last command. The types are indexed by the
parameters of rule R5 they depend on; `State` is the state of this platform's block.
-/

namespace Sys2Proof.Machine

/-- The registers of one channel, rules R22 to R47 of 10_state.md, in the order of the table of rule R53: `u32` and
`s32` are `w` bits wide, `s64` is `we` bits wide. -/
structure Channel (w we : Nat) where
  /-- R22 `DISTANCE`, `s32` -/
  distance : BitVec w
  /-- R23 `POSITION`, `s32` -/
  position : BitVec w
  /-- R24 `DIRECTION` -/
  direction : Dir
  /-- R25 `ACTIVE` -/
  active : Bool
  /-- R26 `CURCOUNT`, `u32` -/
  curcount : BitVec w
  /-- R27 `NEXTCOUNT`, `u32` -/
  nextcount : BitVec w
  /-- R28 `RAMPSTEP`, `u32` -/
  rampstep : BitVec w
  /-- R29 `RAMPFLOOR`, `u32` -/
  rampfloor : BitVec w
  /-- R30 `COMPDUE` -/
  compdue : Bool
  /-- R31 `LASTEDGE`, `u32` -/
  lastedge : BitVec w
  /-- R32 `JOGDIST`, `s32` -/
  jogdist : BitVec w
  /-- R33 `HFIRST` -/
  hfirst : Bool
  /-- R34 `HSTATE`: `false` is `Seeking`, `true` is `AtHome`. -/
  hstate : Bool
  /-- R35 `CFG_SPR`, `u32` -/
  cfgSpr : BitVec w
  /-- R36 `CFG_MINRPM`, `u32` -/
  cfgMinrpm : BitVec w
  /-- R37 `CFG_MAXRPM`, `u32` -/
  cfgMaxrpm : BitVec w
  /-- R38 `CFG_ACCEL`, `u32` -/
  cfgAccel : BitVec w
  /-- R39 `ZEROCOUNT`, `u32` -/
  zerocount : BitVec w
  /-- R40 `MINCOUNT`, `u32` -/
  mincount : BitVec w
  /-- R41 `MAXCOUNT`, `u32` -/
  maxcount : BitVec w
  /-- R42 `LINK_ATTACHED` -/
  linkAttached : Bool
  /-- R43 `LINK_MAJOR`, `u32` -/
  linkMajor : BitVec w
  /-- R44 `LINK_MINOR`, `u32` -/
  linkMinor : BitVec w
  /-- R45 `LINK_ERR`, `s64` -/
  linkErr : BitVec we
  /-- R46 `LINK_SIGN` -/
  linkSign : Dir
  /-- R47 `LINK_TARGET`, `s32` -/
  linkTarget : BitVec w
deriving DecidableEq, Repr

/-- Rules R12 and R65: the events a command sends to the driver ports. -/
inductive DriverEvent (nch : Nat) where
  /-- `ENABLE(c)` -/
  | enable (c : Fin nch)
  /-- `DISABLE(c)` -/
  | disable (c : Fin nch)
  /-- `EMIT(c, d)`: a physical step, or the settle pulse for `d = None` -/
  | emit (c : Fin nch) (d : Dir)
deriving DecidableEq, Repr

/-- Rule R13: the result of a command. -/
structure Response where
  /-- `ERR` -/
  err : Bool
  /-- `B`, the boolean result -/
  b : Bool
  /-- `V`, the value result; the cause code when `ERR = 1` -/
  v : U32
deriving DecidableEq, Repr

/-- One presentation of the command port (rule R62) with the clock and sense readings the block samples when the
command starts (rules R11, R63, R64): one triple of rule R19. -/
structure Command (nch w : Nat) where
  /-- `cmd_word[63:0]` -/
  word : BitVec 64
  /-- `now[31:0]` -/
  now : BitVec w
  /-- `sense[1:0]`, a bit per channel; 1 is asserted -/
  sense : BitVec nch
deriving DecidableEq, Repr

/-- What the outside does to the block next: assert its one reset input (rule R220) or present a command. -/
inductive PortInput (nch w : Nat) where
  | reset
  | command (p : Command nch w)
deriving DecidableEq, Repr

namespace Block

/-- The state of the block with the parameters `par`, and its ports. Only `chs` holds registers of the block (rule
R20); the other fields are the model's own, since rule R51 makes the ports no state (log 1, log 2). -/
structure State {nch w we : Nat} (par : Params nch w we) where
  /-- the registers of the channels, channel 0 first -/
  chs : Vector (Channel w we) nch
  /-- the clock reading sampled for the command under execution (rule R11) -/
  now : BitVec w
  /-- the sense inputs sampled for the command under execution, a bit per channel (rule R11) -/
  sense : BitVec nch
  /-- what the host has still to present, first to come first (rule R19) -/
  inputs : List (PortInput nch w)
  /-- the driver events of the last command, in order (rule R12) -/
  events : List (DriverEvent nch)
  /-- the response to the last command (rule R62); `none` while `resp_valid` is low -/
  resp : Option Response
deriving DecidableEq, Repr

end Block

/-- The state of the block of this platform. -/
abbrev State : Type := Block.State Params.platform

/-- Rule R200: no operation of the block can fail, trap, block or abort, and an illegal command word is answered in
the response (rule R203). No fault exists: the type is empty. -/
inductive Fault where
deriving DecidableEq, Repr

/-- The reasons an instruction has no meaning in the model. -/
inductive Refusal where
  /-- Raised by an arm of `exec` whose instruction has no meaning yet; safe, since the run stops. No arm raises it. -/
  | notModelled (mnemonic : String)
deriving DecidableEq, Repr

/-- Rules R53 and R220: a channel right after reset. -/
def Channel.reset {nch w we : Nat} (par : Params nch w we) : Channel w we where
  distance := 0#w
  position := 0#w
  direction := .none
  active := false
  curcount := par.zeroCountOf par.resetSpr par.resetAccel
  nextcount := par.zeroCountOf par.resetSpr par.resetAccel
  rampstep := 0#w
  rampfloor := 0#w
  compdue := true
  lastedge := 0#w
  jogdist := 0#w
  hfirst := true
  hstate := false
  cfgSpr := par.resetSpr
  cfgMinrpm := par.resetMinrpm
  cfgMaxrpm := par.resetMaxrpm
  cfgAccel := par.resetAccel
  zerocount := par.zeroCountOf par.resetSpr par.resetAccel
  mincount := par.countOf par.resetMaxrpm par.resetSpr
  maxcount := par.countOf par.resetMinrpm par.resetSpr
  linkAttached := false
  linkMajor := 0#w
  linkMinor := 0#w
  linkErr := 0#we
  linkSign := .none
  linkTarget := 0#w

/-- Rules R53, R220 and R221: a block right after reset, with nothing presented to it yet. The clock and sense
readings are environment inputs, which reset does not give (log 4). -/
def Block.State.reset {nch w we : Nat} (par : Params nch w we) : Block.State par where
  chs := Vector.replicate nch (Channel.reset par)
  now := 0#w
  sense := 0#nch
  inputs := []
  events := []
  resp := none

/-- Rules R53, R220 and R221: the block of this platform right after reset. -/
def State.reset : State := Block.State.reset Params.platform

end Sys2Proof.Machine
end

