-- ==== Sys2Proof/Machine/Operands.lean ====
section
/-!
DEFINITION. Directions as numbers and codes (rule R9, 00_scope.md), and the direction operand of RUNCONST (rule
R83, 30_encoding.md); the other channel; register values to and from the 32-bit fields of the words.
-/

namespace Sys2Proof

/-- Rule R9 `unit`: the signed unit step of a direction. -/
def Dir.unit : Dir → Int
  | .clockwise => -1
  | .counterClockwise => 1
  | .none => 0

/-- Rule R9 `DirOf`: the direction whose unit step is `u`. -/
def Dir.ofUnit (u : Int) : Dir :=
  if u = -1 then .clockwise else if u = 1 then .counterClockwise else .none

/-- Rule R9: the 2-bit code of a direction, the low two bits of its unit step in two's complement. -/
def Dir.code : Dir → BitVec 2
  | .none => 0b00#2
  | .counterClockwise => 0b01#2
  | .clockwise => 0b11#2

/-- Rule R83: the direction a 2-bit code names; `0b10` is reserved. -/
def Dir.ofCode (b : BitVec 2) : Option Dir :=
  if b = 0b00#2 then some .none
  else if b = 0b01#2 then some .counterClockwise
  else if b = 0b11#2 then some .clockwise
  else Option.none

/-- Rules R9 and R166 "backward": the direction whose unit step is -1. -/
def Dir.backward : Dir := .clockwise

/-- Rule R10 `other(c) = 1 - c`, for `NCH = 2`; rule R150: the secondary of a link whose primary is `c`. With another
number of channels the rules name no secondary: DESIGN CHOICE (log 6), a free value. -/
def other {nch : Nat} (c : Fin nch) : Fin nch :=
  if nch = 2 then c.rev else ⟨Config.unstatedOther nch c % nch, Nat.mod_lt _ c.pos⟩

/-- Rule R83: an `s32` operand of a command word, as a register value; for `w` other than 32, DESIGN CHOICE (log 6). -/
def signedOperand (w : Nat) (v : S32) : BitVec w := v.signExtend w

/-- Rule R83: a `u32` operand of a command word, as a register value; for `w` other than 32, DESIGN CHOICE (log 6). -/
def unsignedOperand (w : Nat) (v : U32) : BitVec w := v.setWidth w

/-- Rules R13 and R185: a signed register as the 32-bit pattern of a response; for `w` other than 32, DESIGN CHOICE
(log 6). -/
def signedWord {w : Nat} (v : BitVec w) : U32 := v.signExtend 32

/-- Rules R13 and R185: an unsigned register as the 32-bit word of a response; for `w` other than 32, DESIGN CHOICE
(log 6). -/
def unsignedWord {w : Nat} (v : BitVec w) : U32 := v.setWidth 32

end Sys2Proof
end

