-- ==== Sys2Proof/Machine/Flags.lean ====
section
/-!
DEFINITION. The one-bit queries and the packed `STATUS` view (rules R48 and R49 of 10_state.md, R129 to R131 of
41_motion_core.md), the register index space (rule R185 of 44_config_and_access.md) and the response word (rule
R82 of 30_encoding.md).
-/

namespace Sys2Proof.Machine

variable {w we : Nat}

/-- Rule R129: `DIRECTION != None`. -/
def Channel.isRunning (k : Channel w we) : Bool := k.direction != .none

/-- Rule R130: `DISTANCE = 0`. -/
def Channel.isAtTarget (k : Channel w we) : Bool := k.distance == 0#w

/-- A bit, zero-extended to a register word. -/
def bitWord (b : Bool) : U32 := (BitVec.ofBool b).setWidth 32

/-- Rule R48: the packed view `STATUS`, from bit 31 down. -/
def Channel.status (k : Channel w we) : U32 :=
  0#22 ++ k.direction.code ++ 0#1 ++ BitVec.ofBool k.linkAttached ++ BitVec.ofBool k.hstate
    ++ BitVec.ofBool k.hfirst ++ BitVec.ofBool k.compdue ++ BitVec.ofBool k.active
    ++ BitVec.ofBool k.isAtTarget ++ BitVec.ofBool k.isRunning

/-- Rule R185, the indices 23 and 24: `LINK_ERR` as a 64-bit two's complement pattern; for `we`
other than 64, DESIGN CHOICE (log 6). -/
def Channel.linkErrPattern (k : Channel w we) : BitVec 64 := k.linkErr.signExtend 64

/-- Rule R185: the register words of a channel, index 0 first. -/
def Channel.regWords (k : Channel w we) : List U32 :=
  [signedWord k.distance, signedWord k.position, k.direction.code.setWidth 32, bitWord k.active,
   unsignedWord k.curcount, unsignedWord k.nextcount, unsignedWord k.rampstep, unsignedWord k.rampfloor,
   bitWord k.compdue, unsignedWord k.lastedge, signedWord k.jogdist, bitWord k.hfirst, bitWord k.hstate,
   unsignedWord k.cfgSpr, unsignedWord k.cfgMinrpm, unsignedWord k.cfgMaxrpm, unsignedWord k.cfgAccel,
   unsignedWord k.zerocount, unsignedWord k.mincount, unsignedWord k.maxcount, bitWord k.linkAttached,
   unsignedWord k.linkMajor, unsignedWord k.linkMinor, k.linkErrPattern.extractLsb' 0 32,
   k.linkErrPattern.extractLsb' 32 32, k.linkSign.code.setWidth 32, signedWord k.linkTarget, k.status]

/-- Rule R185 `RegRead(c, i)`; the indices 28 to 255 are reserved. -/
def Channel.regRead (k : Channel w we) (i : BitVec 8) : Option U32 := k.regWords[i.toNat]?

/-- Rule R82: the 64-bit response word. -/
def Response.word (r : Response) : BitVec 64 := BitVec.ofBool r.err ++ 0#30 ++ BitVec.ofBool r.b ++ r.v

end Sys2Proof.Machine
end

