-- ==== Sys2Proof/Machine/Ops.lean ====
section
/-!
DEFINITION. The shared operations on the state: register access (rule R10), the driver primitives (rules R121 to
R123), the response of a command (rule R13), the illegal command (rule R203), and what a step does around a command
(rules R6, R11, R62, R220).
-/

namespace Sys2Proof.Machine

variable {nch w we : Nat} {par : Params nch w we}

/-- Rule R10 `REG[c]`: the registers of channel `c`. -/
def Block.State.ch (s : Block.State par) (c : Fin nch) : Channel w we := s.chs[c]

/-- Rule R10 `REG[c] <- v`: the registers of channel `c` become `k`. -/
def Block.State.setCh (s : Block.State par) (c : Fin nch) (k : Channel w we) : Block.State par :=
  { s with chs := s.chs.set c k }

/-- Rule R11 `sense[c]`. -/
def Block.State.senseOf (s : Block.State par) (c : Fin nch) : Bool := s.sense.getLsbD c

/-- Rule R11 `elapsed(c) = wrap_u32(now - LASTEDGE[c])`, modulo `2^w`. A width other than 32 is the model's: DESIGN
CHOICE (log 13). -/
def Block.State.elapsed (s : Block.State par) (c : Fin nch) : BitVec w := s.now - (s.ch c).lastedge

/-- Rule R12: appends a driver event to the command's event list. -/
def Block.State.append (s : Block.State par) (e : DriverEvent nch) : Block.State par :=
  { s with events := s.events ++ [e] }

/-- Rule R121 `DriverEmit(c, d)`. -/
def driverEmit (c : Fin nch) (d : Dir) (s : Block.State par) : Block.State par := s.append (.emit c d)

/-- Rule R122 `WakeUp(c)`. -/
def wakeUp (c : Fin nch) (s : Block.State par) : Block.State par :=
  if (s.ch c).active then s
  else
    let s := s.append (.enable c)
    s.setCh c { s.ch c with active := true }

/-- Rule R123 `Release(c)`. -/
def release (c : Fin nch) (s : Block.State par) : Block.State par :=
  if (s.ch c).active then
    let s := s.append (.disable c)
    s.setCh c { s.ch c with active := false }
  else s

/-- Rule R13: the command returns `B = b, V = v` with `ERR = 0`. -/
def Block.State.respond (s : Block.State par) (b : Bool) (v : U32) : Block.State par :=
  { s with resp := some ⟨false, b, v⟩ }

/-- Rule R203 `illegal(code)`: the response is `ERR = 1, B = 0, V = code`, and nothing else happens. -/
def Block.State.illegal (s : Block.State par) (cause : IllegalCause) : Block.State par :=
  { s with resp := some ⟨true, false, cause.code⟩ }

/-- Rules R11 and R62: a command starts. Its clock and sense readings are sampled, the outputs of the command
before it are gone. -/
def Block.State.sample (s : Block.State par) (p : Command nch w) (rest : List (PortInput nch w)) : Block.State par :=
  { s with now := p.now, sense := p.sense, inputs := rest, events := [], resp := none }

/-- Rule R6: nothing in the block changes state between commands; no command is executing, so the ports show no
event and no response (log 3). -/
def Block.State.idle (s : Block.State par) : Block.State par := { s with events := [], resp := none }

/-- Rules R220 and R221: the reset input is asserted. Every register of both channels takes its reset value, and
nothing is emitted or answered. -/
def Block.State.applyReset (s : Block.State par) (rest : List (PortInput nch w)) : Block.State par :=
  { s with chs := Vector.replicate nch (Channel.reset par), inputs := rest, events := [], resp := none }

end Sys2Proof.Machine
end

