-- ==== Sys2Proof/Machine/Access.lean ====
section
/-!
DEFINITION. Configuration and register access (44_config_and_access.md): the setters SETSPR, SETMINRPM, SETMAXRPM
and SETACCEL, and the commands NOP, RDREG and WRPOS.
-/

namespace Sys2Proof.Machine

variable {nch w we : Nat} {par : Params nch w we}

/-- Rule R178 `Derive(c)`. -/
def derive (par : Params nch w we) (k : Channel w we) : Channel w we :=
  { k with
    zerocount := par.zeroCountOf k.cfgSpr k.cfgAccel
    mincount := par.countOf k.cfgMaxrpm k.cfgSpr
    maxcount := par.countOf k.cfgMinrpm k.cfgSpr }

/-- Rule R183: a setter writes its configuration register and derives the counts when it accepts, changes nothing
when it rejects, and answers the same. -/
def configure (c : Fin nch) (accepts : Bool) (k : Channel w we) (s : Block.State par) :
    Host.Outcome (Block.State par) Fault Refusal :=
  if accepts then .next ((s.setCh c (derive par k)).respond false 0#32) else .next (s.respond false 0#32)

/-- Rule R179, SETSPR. -/
def execSetspr (c : Fin nch) (v : U32) (s : Block.State par) : Host.Outcome (Block.State par) Fault Refusal :=
  configure c (unsignedOperand w v != 0#w) { s.ch c with cfgSpr := unsignedOperand w v } s

/-- Rule R180, SETMINRPM. -/
def execSetminrpm (c : Fin nch) (v : U32) (s : Block.State par) : Host.Outcome (Block.State par) Fault Refusal :=
  configure c (unsignedOperand w v != 0#w && (unsignedOperand w v).toNat < (s.ch c).cfgMaxrpm.toNat)
    { s.ch c with cfgMinrpm := unsignedOperand w v } s

/-- Rule R181, SETMAXRPM. -/
def execSetmaxrpm (c : Fin nch) (v : U32) (s : Block.State par) : Host.Outcome (Block.State par) Fault Refusal :=
  configure c ((s.ch c).cfgMinrpm.toNat < (unsignedOperand w v).toNat)
    { s.ch c with cfgMaxrpm := unsignedOperand w v } s

/-- Rule R182, SETACCEL. -/
def execSetaccel (c : Fin nch) (v : U32) (s : Block.State par) : Host.Outcome (Block.State par) Fault Refusal :=
  configure c (unsignedOperand w v != 0#w && (s.ch c).direction == .none)
    { s.ch c with cfgAccel := unsignedOperand w v } s

/-- Rule R184, NOP. -/
def execNop (_c : Fin nch) (s : Block.State par) : Host.Outcome (Block.State par) Fault Refusal :=
  .next (s.respond false 0#32)

/-- Rule R187, RDREG; a reserved index is an illegal command (rule R202, cause 5). -/
def execRdreg (c : Fin nch) (i : BitVec 8) (s : Block.State par) : Host.Outcome (Block.State par) Fault Refusal :=
  match (s.ch c).regRead i with
  | some v => .next (s.respond false v)
  | none => .next (s.illegal .regindex)

/-- Rule R188, WRPOS. -/
def execWrpos (c : Fin nch) (v : S32) (s : Block.State par) : Host.Outcome (Block.State par) Fault Refusal :=
  .next ((s.setCh c { s.ch c with position := signedOperand w v }).respond false 0#32)

end Sys2Proof.Machine
end

