-- ==== Sys2Proof/Machine/Ramp.lean ====
section
/-!
DEFINITION. The Ramp Engine (40_ramp_engine.md): the recurrence, the internal operations, and the commands
SEEDIDLE, ACCEL and DECEL. The engine is "pure computation, no I/O" on one channel, so its operations are functions
of a channel's registers.
-/

namespace Sys2Proof.Machine

variable {nch w we : Nat} {par : Params nch w we}

/-- Rule R101 `AccNext(cnt, n)`. -/
def accNext (cnt n : Nat) : Nat := cnt - 2 * cnt / (4 * n + 1)

/-- Rule R102 `DecNext(cnt, n)`, for `n >= 1`. -/
def decNext (cnt n : Nat) : Nat := cnt + 2 * cnt / (4 * n - 1)

/-- Rule R103 `Clamp(c, x)`. -/
def Channel.clamp (k : Channel w we) (x : Nat) : BitVec w :=
  BitVec.ofNat w (min (max x k.mincount.toNat) k.maxcount.toNat)

/-- Rule R105: the acceleration keeps the count, because the index is saturated or the next delay would fall below
`MINCOUNT`. For `w` other than 32 the saturation at `2^w - 1` in the place of `2^32 - 1` is the model's: DESIGN CHOICE
(log 13). -/
def Channel.cruises (k : Channel w we) : Bool :=
  k.rampstep.toNat == 2 ^ w - 1 || accNext k.curcount.toNat (k.rampstep.toNat + 1) < k.mincount.toNat

/-- Rule R105 `AccelCore(c, keep)`. The returned delay is `NEXTCOUNT` afterwards. -/
def accelCore (keep : Bool) (k : Channel w we) : Channel w we :=
  if k.cruises then { k with nextcount := k.clamp k.curcount.toNat, compdue := keep }
  else
    { k with
      rampstep := BitVec.ofNat w (k.rampstep.toNat + 1)
      nextcount := k.clamp (accNext k.curcount.toNat (k.rampstep.toNat + 1))
      compdue := keep }

/-- Rule R107 `Stop(c)`. -/
def stopRamp (k : Channel w we) : Channel w we :=
  { k with direction := .none, nextcount := k.zerocount, rampstep := 0#w, rampfloor := 0#w }

/-- Rule R106, the result `stopped`: the index comes down to the ramp floor, or is not above it. -/
def Channel.decelStops (k : Channel w we) : Bool := k.rampstep.toNat ≤ k.rampfloor.toNat + 1

/-- Rule R106, the arm above the ramp floor, before a stop: the delay grows and the index falls. -/
def decelStep (k : Channel w we) : Channel w we :=
  if k.rampfloor.toNat < k.rampstep.toNat then
    { k with
      nextcount := k.clamp (decNext k.curcount.toNat k.rampstep.toNat)
      rampstep := BitVec.ofNat w (k.rampstep.toNat - 1) }
  else k

/-- Rule R106 `DecelCore(c, keep)`. The returned delay is `NEXTCOUNT` afterwards; `stopped` is `decelStops`. -/
def decelCore (keep : Bool) (k : Channel w we) : Channel w we :=
  let k' := if k.decelStops then stopRamp (decelStep k) else decelStep k
  { k' with compdue := keep }

/-- Rule R108, the loop: from the delay `x` after `n` virtual steps. Its first argument bounds the iterations. -/
def vseedLoop (mincount maxcount : Nat) : Nat → Nat → Nat → Nat × Nat
  | 0, x, n => (x, n)
  | fuel + 1, x, n =>
    if x ≤ maxcount then (x, n)
    else if accNext x (n + 1) = x then (x, n)
    else if accNext x (n + 1) < mincount then (x, n)
    else vseedLoop mincount maxcount fuel (accNext x (n + 1)) (n + 1)

/-- Rule R108: where the virtual ramp of a channel ends, the delay and the number of virtual steps. The loop "ends
after at most `ZEROCOUNT[c]` iterations". -/
def Channel.virtualRamp (k : Channel w we) : Nat × Nat :=
  vseedLoop k.mincount.toNat k.maxcount.toNat k.zerocount.toNat k.zerocount.toNat 0

/-- Rule R108 `VSeed(c)`. -/
def vseed (k : Channel w we) : Channel w we :=
  { k with
    rampstep := BitVec.ofNat w k.virtualRamp.2
    rampfloor := BitVec.ofNat w k.virtualRamp.2
    curcount := k.clamp k.virtualRamp.1
    nextcount := k.clamp k.virtualRamp.1
    compdue := false }

/-- Rule R109 `SeedIdleCore(c)`. -/
def seedIdleCore (k : Channel w we) : Channel w we :=
  { k with
    rampstep := 0#w
    rampfloor := 0#w
    curcount := k.zerocount
    nextcount := k.zerocount
    compdue := true }

/-- Rule R110, SEEDIDLE. -/
def execSeedidle (c : Fin nch) (s : Block.State par) : Host.Outcome (Block.State par) Fault Refusal :=
  .next ((s.setCh c (seedIdleCore (s.ch c))).respond false 0#32)

/-- Rule R111, ACCEL. -/
def execAccel (c : Fin nch) (keep : Bool) (s : Block.State par) : Host.Outcome (Block.State par) Fault Refusal :=
  let k := accelCore keep (s.ch c)
  .next ((s.setCh c k).respond false (unsignedWord k.nextcount))

/-- Rule R112, DECEL. -/
def execDecel (c : Fin nch) (keep : Bool) (s : Block.State par) : Host.Outcome (Block.State par) Fault Refusal :=
  let k := decelCore keep (s.ch c)
  .next ((s.setCh c k).respond (s.ch c).decelStops (unsignedWord k.nextcount))

end Sys2Proof.Machine
end

