-- ==== Sys2Proof/Machine/Sync.lean ====
section
/-!
DEFINITION. The Synchronization Engine (42_sync_engine.md): the link rules the comparator invokes, and the commands
SYNC and ENDSYNC.
-/

namespace Sys2Proof.Machine

variable {nch w we : Nat} {par : Params nch w we}

/-- Rule R153, a secondary step: the driver is woken, the step emitted, `POSITION[o]` moved. -/
def secondaryStep (o : Fin nch) (d : Dir) (s : Block.State par) : Block.State par :=
  let s := driverEmit o d (wakeUp o s)
  s.setCh o { s.ch o with position := wrapS w ((s.ch o).position.toInt + d.unit) }

/-- Rule R153: the accumulator less `LINK_MINOR`. -/
def Channel.linkErrLess (k : Channel w we) : BitVec we := wrapS we (k.linkErr.toInt - k.linkMinor.toNat)

/-- Rule R153 `SyncOnPrimaryStep(c)`. -/
def syncOnPrimaryStep (c : Fin nch) (s : Block.State par) : Block.State par :=
  if (s.ch c).linkAttached then
    if (s.ch c).linkMajor = 0#w then driverEmit (other c) .none s
    else
      let e := (s.ch c).linkErrLess
      let s := s.setCh c { s.ch c with linkErr := e }
      if e.toInt < 0 then
        let s := secondaryStep (other c) (s.ch c).linkSign s
        s.setCh c { s.ch c with linkErr := wrapS we (e.toInt + (s.ch c).linkMajor.toNat) }
      else driverEmit (other c) .none s
  else s

/-- Rule R154 `SyncSettle(c)`. -/
def syncSettle (c : Fin nch) (s : Block.State par) : Block.State par :=
  if (s.ch c).linkAttached then driverEmit (other c) .none s else s

/-- Rule R151, the six link registers SYNC writes, from `POSITION[o]` and the target. That `LINK_ERR` loses high bits
where `we` is too small for it is the model's: DESIGN CHOICE (log 13); with 64 bits it never does. -/
def linkAttach (position target : BitVec w) (k : Channel w we) : Channel w we :=
  let diff := target.toInt - position.toInt
  { k with
    linkAttached := true
    linkMajor := BitVec.ofNat w k.distance.toInt.natAbs
    linkMinor := BitVec.ofNat w diff.natAbs
    linkErr := BitVec.ofNat we (k.distance.toInt.natAbs / 2)
    linkSign := Dir.ofUnit diff.sign
    linkTarget := target }

/-- Rule R151, SYNC. -/
def execSync (c : Fin nch) (target : S32) (s : Block.State par) : Host.Outcome (Block.State par) Fault Refusal :=
  let k := linkAttach (s.ch (other c)).position (signedOperand w target) (s.ch c)
  .next ((s.setCh c k).respond false 0#32)

/-- Rule R152, ENDSYNC. -/
def execEndsync (c : Fin nch) (s : Block.State par) : Host.Outcome (Block.State par) Fault Refusal :=
  .next ((s.setCh c { s.ch c with linkAttached := false }).respond false 0#32)

end Sys2Proof.Machine
end

