-- ==== Sys2Proof/Machine/Motion.lean ====
section
/-!
DEFINITION. The Motion Core (41_motion_core.md): the step-due comparator with the position accumulator, and the
commands SETDIST, RUN, SCHEDSTEP, RUNCONST, ISRUNNING, ATTARGET, ISACTIVE, WAKEUP and RELEASE.
-/

namespace Sys2Proof.Machine

variable {nch w we : Nat} {par : Params nch w we}

/-- Rule R126: the comparator's condition, `elapsed(c) >= CURCOUNT[c]`. -/
def Block.State.stepDue (s : Block.State par) (c : Fin nch) : Bool := (s.ch c).curcount.toNat ≤ (s.elapsed c).toNat

/-- Rule R126: `DISTANCE` and `POSITION` move by the unit step of the direction. -/
def Channel.move (k : Channel w we) : Channel w we :=
  { k with
    distance := wrapS w (k.distance.toInt - k.direction.unit)
    position := wrapS w (k.position.toInt + k.direction.unit) }

/-- Rule R126: the timestamp is taken, `NEXTCOUNT` rolled in and a recomputation owed. -/
def Channel.roll (now : BitVec w) (k : Channel w we) : Channel w we :=
  { k with lastedge := now, curcount := k.nextcount, compdue := true }

/-- Rule R126, the due arm up to the link. -/
def dueStep (c : Fin nch) (s : Block.State par) : Block.State par :=
  let s := s.setCh c (s.ch c).move
  let s := driverEmit c (s.ch c).direction s
  s.setCh c ((s.ch c).roll s.now)

/-- Rule R126 `SchedStepCore(c)`. -/
def schedStepCore (c : Fin nch) (s : Block.State par) : Block.State par :=
  if s.stepDue c then
    if (s.ch c).direction.unit ≠ 0 then syncOnPrimaryStep c (dueStep c s)
    else syncSettle c (dueStep c s)
  else syncSettle c (driverEmit c .none s)

/-- Rule R125: still heading toward the target, with more distance left than the physical ramp index. -/
def Channel.keepsAccelerating (k : Channel w we) : Bool :=
  k.distance.toInt.sign == k.direction.unit &&
    decide ((k.rampstep.toNat : Int) - k.rampfloor.toNat < k.distance.toInt.natAbs)

/-- Rule R125, the recomputation that is owed: start a move, accelerate or decelerate. -/
def recompute (k : Channel w we) : Channel w we :=
  if k.direction = .none then
    let k := vseed k
    { k with direction := Dir.ofUnit k.distance.toInt.sign }
  else if k.keepsAccelerating then accelCore false k
  else decelCore false k

/-- Rule R125, the part of RUN before the comparator when the motor is not at rest. -/
def runRecompute (c : Fin nch) (s : Block.State par) : Block.State par :=
  if (s.ch c).compdue then
    let s := wakeUp c s
    s.setCh c (recompute (s.ch c))
  else s

/-- Rule R125: at rest is `DISTANCE = 0` and `DIRECTION = None`. -/
def Channel.atRest (k : Channel w we) : Bool := k.isAtTarget && !k.isRunning

/-- Rule R124, SETDIST. -/
def execSetdist (c : Fin nch) (steps : S32) (s : Block.State par) : Host.Outcome (Block.State par) Fault Refusal :=
  .next ((s.setCh c { s.ch c with distance := signedOperand w steps }).respond false 0#32)

/-- Rule R125, RUN. -/
def execRun (c : Fin nch) (s : Block.State par) : Host.Outcome (Block.State par) Fault Refusal :=
  if (s.ch c).atRest then
    let s := s.setCh c { s.ch c with compdue := true }
    .next ((syncSettle c (driverEmit c .none s)).respond true 0#32)
  else .next ((schedStepCore c (runRecompute c s)).respond false 0#32)

/-- Rule R127, SCHEDSTEP. -/
def execSchedstep (c : Fin nch) (s : Block.State par) : Host.Outcome (Block.State par) Fault Refusal :=
  .next ((schedStepCore c s).respond false 0#32)

/-- Rules R128 and R166: the constant cadence, `elapsed(c) > MAXCOUNT[c]`. -/
def Block.State.cadenceDue (s : Block.State par) (c : Fin nch) : Bool := (s.ch c).maxcount.toNat < (s.elapsed c).toNat

/-- Rule R128: one constant-speed poll in a direction other than `None`. -/
def jogPoll (c : Fin nch) (d : Dir) (s : Block.State par) : Block.State par :=
  let s := wakeUp c s
  if s.cadenceDue c then
    let s := driverEmit c d s
    s.setCh c { s.ch c with lastedge := s.now, jogdist := wrapS w ((s.ch c).jogdist.toInt + d.unit) }
  else driverEmit c .none s

/-- Rule R128, RUNCONST; the reserved direction code is an illegal command (rule R202, cause 4). -/
def execRunconst (c : Fin nch) (d : BitVec 2) (s : Block.State par) : Host.Outcome (Block.State par) Fault Refusal :=
  match Dir.ofCode d with
  | none => .next (s.illegal .direction)
  | some .none =>
    let s := driverEmit c .none s
    .next ((s.setCh c { s.ch c with jogdist := 0#w }).respond false 0#32)
  | some .clockwise =>
    let s := jogPoll c .clockwise s
    .next (s.respond false (signedWord (s.ch c).jogdist))
  | some .counterClockwise =>
    let s := jogPoll c .counterClockwise s
    .next (s.respond false (signedWord (s.ch c).jogdist))

/-- Rule R129, ISRUNNING. -/
def execIsrunning (c : Fin nch) (s : Block.State par) : Host.Outcome (Block.State par) Fault Refusal :=
  .next (s.respond (s.ch c).isRunning 0#32)

/-- Rule R130, ATTARGET. -/
def execAttarget (c : Fin nch) (s : Block.State par) : Host.Outcome (Block.State par) Fault Refusal :=
  .next (s.respond (s.ch c).isAtTarget 0#32)

/-- Rule R131, ISACTIVE. -/
def execIsactive (c : Fin nch) (s : Block.State par) : Host.Outcome (Block.State par) Fault Refusal :=
  .next (s.respond (s.ch c).active 0#32)

/-- Rule R132, WAKEUP. -/
def execWakeup (c : Fin nch) (s : Block.State par) : Host.Outcome (Block.State par) Fault Refusal :=
  .next ((wakeUp c s).respond false 0#32)

/-- Rule R133, RELEASE. -/
def execRelease (c : Fin nch) (s : Block.State par) : Host.Outcome (Block.State par) Fault Refusal :=
  .next ((release c s).respond false 0#32)

end Sys2Proof.Machine
end

