-- ==== Sys2Proof/Machine/Homing.lean ====
section
/-!
DEFINITION. The Homing Engine (43_homing_engine.md): the command REFERENCING.
-/

namespace Sys2Proof.Machine

variable {nch w we : Nat} {par : Params nch w we}

/-- Rule R166, the sense input asserted: the position reference is zeroed and the next call is a fresh seek. -/
def homeFound (c : Fin nch) (s : Block.State par) : Block.State par :=
  let s := s.setCh c { s.ch c with position := 0#w, hfirst := true, hstate := true }
  driverEmit c .none s

/-- Rule R166, seeking: one step backward on the first call of a seek or when the cadence is due, else a settle
pulse. -/
def homeSeek (c : Fin nch) (s : Block.State par) : Block.State par :=
  let s := s.setCh c { s.ch c with hstate := false }
  if (s.ch c).hfirst || s.cadenceDue c then
    let s := driverEmit c Dir.backward s
    s.setCh c { s.ch c with
      position := wrapS w ((s.ch c).position.toInt - 1), lastedge := s.now, hfirst := false }
  else driverEmit c .none s

/-- Rule R166, REFERENCING. -/
def execReferencing (c : Fin nch) (s : Block.State par) : Host.Outcome (Block.State par) Fault Refusal :=
  let s := wakeUp c s
  if s.senseOf c then .next ((homeFound c s).respond true 0#32)
  else .next ((homeSeek c s).respond false 0#32)

end Sys2Proof.Machine
end

