-- ==== Sys2Proof/Machine/Dispatch.lean ====
section
/-! DEFINITION. One arm per command of rule R84 (30_encoding.md). -/

namespace Sys2Proof.Machine

/-- The effect of a command on the state in which it starts: its readings sampled, its outputs still to come. -/
def exec (i : Instr) (s : State) : Host.Outcome State Fault Refusal :=
  match i with
  | .nop c => Sys2Proof.Machine.execNop c s
  -- Ramp Engine
  | .seedidle c => Sys2Proof.Machine.execSeedidle c s
  | .accel c keep => Sys2Proof.Machine.execAccel c keep s
  | .decel c keep => Sys2Proof.Machine.execDecel c keep s
  -- Motion Core
  | .setdist c steps => Sys2Proof.Machine.execSetdist c steps s
  | .run c => Sys2Proof.Machine.execRun c s
  | .schedstep c => Sys2Proof.Machine.execSchedstep c s
  | .runconst c d => Sys2Proof.Machine.execRunconst c d s
  | .isrunning c => Sys2Proof.Machine.execIsrunning c s
  | .attarget c => Sys2Proof.Machine.execAttarget c s
  | .isactive c => Sys2Proof.Machine.execIsactive c s
  | .wakeup c => Sys2Proof.Machine.execWakeup c s
  | .release c => Sys2Proof.Machine.execRelease c s
  -- Synchronization Engine
  | .sync c target => Sys2Proof.Machine.execSync c target s
  | .endsync c => Sys2Proof.Machine.execEndsync c s
  -- Homing Engine
  | .referencing c => Sys2Proof.Machine.execReferencing c s
  -- Configuration and register access
  | .setspr c v => Sys2Proof.Machine.execSetspr c v s
  | .setminrpm c v => Sys2Proof.Machine.execSetminrpm c v s
  | .setmaxrpm c v => Sys2Proof.Machine.execSetmaxrpm c v s
  | .setaccel c v => Sys2Proof.Machine.execSetaccel c v s
  | .rdreg c index => Sys2Proof.Machine.execRdreg c index s
  | .wrpos c v => Sys2Proof.Machine.execWrpos c v s

end Sys2Proof.Machine
end

