-- ==== Sys2Proof/Machine/Step.lean ====
section
/-!
DEFINITION. One step of the block: the next thing the outside does to it, from rules R62, R70 and R220. Also the
placing of one command word before the block.
-/

namespace Sys2Proof.Machine

/-- Rules R62 and R70: the block takes the next input. A command word is decoded and executed completely; an illegal
one only answers (rule R203). With nothing presented the block keeps its registers (rule R6). -/
def step (s : State) : Host.Outcome State Fault Refusal :=
  match s.inputs with
  | [] => .next s.idle
  | .reset :: rest => .next (s.applyReset rest)
  | .command p :: rest =>
    match decode p.word with
    | .ok i => exec i (s.sample p rest)
    | .error cause => .next ((s.sample p rest).illegal cause)

/-- The host presents the command word `w` next, at the clock and sense readings the ports show in `s`. The block
fetches nothing (rule R21), so this stands for the host. -/
def State.withFetchWord (s : State) (nbits w : Nat) : State :=
  { s with inputs := .command ⟨BitVec.ofNat 64 (w % 2 ^ nbits), s.now, s.sense⟩ :: s.inputs }

end Sys2Proof.Machine
end

