-- ==== Sys2Proof/Safety.lean ====
section
/-!
DEFINITION. What the claims speak of: the whole next state of a command, legal channels and states (10_state.md,
rules R35 to R52), and the shape of a word for an instruction (rule R80).
-/

namespace Sys2Proof

/-- Rule R80: the word of `i` has the operation code `op`, the small argument `arg` and the immediate `imm`, with
`RSV = 0` and the channel of `i` in `CH`, and the decoder reads `i` from it. -/
def Instr.EncodedAs (i : Instr) (op arg : BitVec 8) (imm : BitVec 32) : Prop :=
  encode i = op ++ (if i.chan = 0 then 0#8 else 1#8) ++ arg ++ 0#8 ++ imm ∧ decode (encode i) = .ok i

namespace Machine

variable {nch w we : Nat} {par : Params nch w we}

/-- Rule R13: the response of a legal command. -/
def Response.ok (b : Bool) (v : U32) : Response := ⟨false, b, v⟩

/-- The state `s` with the registers `k` in channel `c` and `o` in the other channel, after the driver events `es`;
nothing else has changed. -/
def Block.State.put (s : Block.State par) (c : Fin nch) (k o : Channel w we) (es : List (DriverEvent nch)) :
    Block.State par :=
  { (s.setCh c k).setCh (other c) o with events := s.events ++ es }

/-- The whole state after a command on channel `c`: its registers are `k`, those of the other channel are `o`, the
driver events `es` have been produced in order, the response is `r`, and nothing else has changed. -/
def Block.State.afterBoth (s : Block.State par) (c : Fin nch) (k o : Channel w we) (es : List (DriverEvent nch))
    (r : Response) : Block.State par :=
  { s.put c k o es with resp := some r }

/-- The whole state after a command that leaves the other channel as it was. -/
def Block.State.after (s : Block.State par) (c : Fin nch) (k : Channel w we) (es : List (DriverEvent nch))
    (r : Response) : Block.State par :=
  s.afterBoth c k (s.ch (other c)) es r

/-- Rule R122: the event of waking the driver of channel `c`. -/
def Block.State.enableEvents (s : Block.State par) (c : Fin nch) : List (DriverEvent nch) :=
  if (s.ch c).active then [] else [.enable c]

/-- Rule R154: the event of the link's settle pulse on a poll of channel `c`. -/
def Block.State.settleEvents (s : Block.State par) (c : Fin nch) : List (DriverEvent nch) :=
  if (s.ch c).linkAttached then [.emit (other c) .none] else []

/-- Rules R35 to R38: the legal values of the configuration registers. -/
abbrev Channel.ConfigLegal (k : Channel w we) : Prop :=
  1 ≤ k.cfgSpr.toNat ∧ 1 ≤ k.cfgMinrpm.toNat ∧ k.cfgMinrpm.toNat < k.cfgMaxrpm.toNat ∧ 1 ≤ k.cfgAccel.toNat

/-- Rules R39 to R41: the derived counts are those of the configuration. -/
abbrev Channel.CountsDerived (par : Params nch w we) (k : Channel w we) : Prop :=
  k.zerocount = par.zeroCountOf k.cfgSpr k.cfgAccel ∧
  k.mincount = par.countOf k.cfgMaxrpm k.cfgSpr ∧
  k.maxcount = par.countOf k.cfgMinrpm k.cfgSpr

/-- Rule R52 (e): `RAMPFLOOR <= RAMPSTEP`. -/
abbrev Channel.FloorBelowIndex (k : Channel w we) : Prop := k.rampfloor.toNat ≤ k.rampstep.toNat

/-- Rules R43, R45 and R46: the ranges of the link registers. For `w` other than 32 the bound `2^(w - 1)` in the place
of `2^31` is the model's: DESIGN CHOICE (log 13). -/
abbrev Channel.LinkLegal (k : Channel w we) : Prop :=
  k.linkMajor.toNat ≤ 2 ^ (w - 1) ∧ (k.linkSign = .none ↔ k.linkMinor = 0#w) ∧
  (0 < k.linkMajor.toNat → k.linkMinor.toNat ≤ k.linkMajor.toNat →
    -(k.linkMinor.toNat : Int) ≤ k.linkErr.toInt ∧ k.linkErr.toInt ≤ (k.linkMajor.toNat : Int) - 1)

/-- A channel whose registers stand to each other as 10_state.md says. -/
abbrev Channel.Legal (par : Params nch w we) (k : Channel w we) : Prop :=
  k.ConfigLegal ∧ k.CountsDerived par ∧ k.FloorBelowIndex ∧ k.LinkLegal

/-- The invariant of the block: every channel is legal. -/
abbrev Block.State.Inv (s : Block.State par) : Prop := ∀ c, (s.ch c).Legal par

/-- Rule R52 (c): both delays lie in the band `[MINCOUNT, MAXCOUNT]`. -/
abbrev Channel.InBand (k : Channel w we) : Prop :=
  k.mincount.toNat ≤ k.curcount.toNat ∧ k.curcount.toNat ≤ k.maxcount.toNat ∧
  k.mincount.toNat ≤ k.nextcount.toNat ∧ k.nextcount.toNat ≤ k.maxcount.toNat

/-- Rule R52 (c): while the motor runs its delays lie in the band. -/
abbrev Channel.BandWhileRunning (k : Channel w we) : Prop := k.direction ≠ .none → k.InBand

/-- Rule R12: a physical step on channel `c`. -/
def DriverEvent.isStepOn (c : Fin nch) : DriverEvent nch → Bool
  | .emit c' d => c' == c && d != .none
  | .enable _ | .disable _ => false

/-- The channel whose driver port carries the event. -/
def DriverEvent.chan : DriverEvent nch → Fin nch
  | .enable c | .disable c | .emit c _ => c

/-- Rule R25: what an event makes of the enabled state of channel `c`'s driver. -/
def DriverEvent.enables (c : Fin nch) (on : Bool) : DriverEvent nch → Bool
  | .enable c' => if c' = c then true else on
  | .disable c' => if c' = c then false else on
  | .emit _ _ => on

/-- `n` steps of the block: the driver events of all of them in order, and the state they end in. -/
def Block.State.runTrace : Nat → Block.State Params.platform → List (DriverEvent 2) × Block.State Params.platform
  | 0, s => ([], s)
  | n + 1, s =>
    match step s with
    | .next t => (t.events ++ (t.runTrace n).1, (t.runTrace n).2)
    | .fault _ => ([], s)
    | .refused _ => ([], s)

/-- The host presents nothing but legal commands, each of them one of `cmds`. -/
def Block.State.PresentsOnly (s : Block.State Params.platform) (cmds : List Instr) : Prop :=
  ∀ x ∈ s.inputs, ∃ p, x = .command p ∧ ∃ i ∈ cmds, decode p.word = .ok i

end Machine

end Sys2Proof
end

