-- ==== Sys2Proof/Certificates/Slice0/Obligations.lean ====
section
/-!
DEFINITION. The statements about the block. A rule of the spec is cited by its number; the whole next state of a
command is written with `Block.State.after` and `Block.State.afterBoth`, which say everything a command leaves
unchanged.
-/

open Sys2Proof Sys2Proof.Machine

/-! ## The command word (30_encoding.md) -/

/-- Rules R80 to R85: decoding the word of a well-formed instruction gives the instruction back, with every operand
at every value the encoding admits. -/
def Obligations.DecodeOfEncodeIsTheInstruction : Prop :=
  ∀ i : Instr, i.wellFormed = true → decode (encode i) = .ok i

/-- Rules R80 to R85: every word the decoder accepts is the word of the instruction it reads, and that instruction
is well formed, so that no two words mean the same command. -/
def Obligations.AcceptedWordIsTheWordOfItsInstruction : Prop :=
  ∀ (w : BitVec 64) (i : Instr), decode w = .ok i → i.wellFormed = true ∧ encode i = w

/-- Rule R85: a word is legal if and only if it selects a row of the opcode map by its match and mask and its
value-dependent field is legal; it is then an instruction of that row; every other word changes no register,
produces no driver event and returns `ERR = 1` with a cause code. -/
def Obligations.LegalWordsAreTheRowsOfTheOpcodeMap : Prop :=
  ∀ w : BitVec 64,
    ((∃ i, decode w = .ok i) ↔
      ∃ op : Opcode, w &&& op.maskWord = op.matchWord ∧
        (op = .runconst → w.extractLsb' 40 2 ≠ 0b10#2) ∧
        (op = .rdreg → (w.extractLsb' 40 8).toNat ≤ 27)) ∧
    (∀ i, decode w = .ok i → w &&& i.opcode.maskWord = i.opcode.matchWord) ∧
    ∀ (s : State) (p : Command 2 32) (rest : List (PortInput 2 32)),
      s.inputs = .command p :: rest → p.word = w → (∀ i, decode w ≠ .ok i) →
      ∃ (t : State) (cause : IllegalCause), step s = .next t ∧ t.ch 0 = s.ch 0 ∧ t.ch 1 = s.ch 1 ∧
        t.events = [] ∧ t.resp = some ⟨true, false, cause.code⟩

/-- Rule R204, with the conditions of the causes from the table of rule R202: the checks are made in the order of
the cause codes, on the command word alone, and the first that fails is reported. The last six clauses are the
rule's examples. -/
def Obligations.IllegalCausesAreReportedInPriorityOrder : Prop :=
  (∀ w : BitVec 64,
    let op := w.extractLsb' 56 8
    let ch := w.extractLsb' 48 8
    let arg := w.extractLsb' 40 8
    let rsv := w.extractLsb' 32 8
    let imm := w.extractLsb' 0 32
    (decode w = .error .opcode ↔ ∀ o : Opcode, o.byte ≠ op) ∧
    (decode w = .error .channel ↔ (∃ o : Opcode, o.byte = op) ∧ 2 ≤ ch.toNat) ∧
    (decode w = .error .reserved ↔ ∃ o : Opcode, o.byte = op ∧ ch.toNat < 2 ∧
      (rsv ≠ 0#8 ∨ arg &&& o.argForm.unusedBits ≠ 0#8 ∨ (o.usesImm = false ∧ imm ≠ 0#32))) ∧
    (decode w = .error .direction ↔
      op = 0x23#8 ∧ ch.toNat < 2 ∧ rsv = 0#8 ∧ arg = 0b10#8 ∧ imm = 0#32) ∧
    (decode w = .error .regindex ↔
      op = 0x60#8 ∧ ch.toNat < 2 ∧ rsv = 0#8 ∧ 27 < arg.toNat ∧ imm = 0#32)) ∧
  decode 0x2902000000000001#64 = .error .opcode ∧
  decode 0x2102000000000001#64 = .error .channel ∧
  decode 0x2100000100000000#64 = .error .reserved ∧
  decode 0x2300020000000000#64 = .error .direction ∧
  decode 0x2300060000000000#64 = .error .reserved ∧
  decode 0x60001C0000000000#64 = .error .regindex

/-- Rule R88: the five example words of the spec decode to the commands they stand for. -/
def Obligations.ExampleWordsDecodeToTheirCommands : Prop :=
  decode 0x20000000FFFFFFD8#64 = .ok (.setdist 0 (BitVec.ofInt 32 (-40))) ∧
  decode 0x2101000000000000#64 = .ok (.run 1) ∧
  decode 0x1100010000000000#64 = .ok (.accel 0 true) ∧
  decode 0x2301030000000000#64 = .ok (.runconst 1 0b11#2) ∧
  decode 0x6000010000000000#64 = .ok (.rdreg 0 1#8)

/-- Rule R82: the places of `ERR`, `B` and `V` in the response word, its other bits 0. -/
def Obligations.ResponseWordHoldsErrBAndV : Prop :=
  ∀ r : Response, r.word.getLsbD 63 = r.err ∧ r.word.extractLsb' 33 30 = 0#30 ∧ r.word.getLsbD 32 = r.b ∧
    r.word.extractLsb' 0 32 = r.v

/-- Rule R9: the unit step of each direction, the direction of each unit step, and the 2-bit codes, which are the
low two bits of the unit step; `0b10` is no direction's code. -/
def Obligations.DirectionCodesAreTheUnitSteps : Prop :=
  Dir.clockwise.unit = -1 ∧ Dir.counterClockwise.unit = 1 ∧ Dir.none.unit = 0 ∧
  (∀ d : Dir, Dir.ofUnit d.unit = d ∧ d.code = BitVec.ofInt 2 d.unit ∧ Dir.ofCode d.code = some d) ∧
  Dir.none.code = 0b00#2 ∧ Dir.counterClockwise.code = 0b01#2 ∧ Dir.clockwise.code = 0b11#2 ∧
  Dir.ofCode 0b10#2 = none ∧ Dir.backward.unit = -1

/-! ## A step of the block (20_memory.md, 60_exceptions.md, 70_reset_and_hazards.md) -/

/-- Rules R62 and R70: when the command the host presents next decodes to an instruction, the step is that
instruction's effect on the state with the command's readings sampled, the outputs of the command before it gone,
and the inputs after it still to come. -/
def Obligations.StepRunsTheDecodedCommand : Prop :=
  ∀ (s : State) (p : Command 2 32) (rest : List (PortInput 2 32)) (i : Instr),
    s.inputs = .command p :: rest → decode p.word = .ok i →
    i.wellFormed = true ∧
    step s = exec i { s with now := p.now, sense := p.sense, inputs := rest,
                             events := [], resp := none }

/-- Rule R203: an illegal command word changes no register of either channel, produces no driver event, answers
`ERR = 1, B = 0, V = code` whatever the clock and sense readings, and leaves the next input to be taken normally. -/
def Obligations.IllegalCommandOnlyAnswersItsCause : Prop :=
  (∀ (s : State) (p : Command 2 32) (rest : List (PortInput 2 32)) (cause : IllegalCause),
    s.inputs = .command p :: rest → decode p.word = .error cause →
    ∃ t, step s = .next t ∧ t.ch 0 = s.ch 0 ∧ t.ch 1 = s.ch 1 ∧ t.events = [] ∧
      t.resp = some ⟨true, false, cause.code⟩ ∧ t.inputs = rest) ∧
  IllegalCause.opcode.code = 1#32 ∧ IllegalCause.channel.code = 2#32 ∧ IllegalCause.reserved.code = 3#32 ∧
  IllegalCause.direction.code = 4#32 ∧ IllegalCause.regindex.code = 5#32

/-- Rule R6, last sentence: a step with no command presented leaves every register of both channels as it was. That
such a step exists and shows no event and no response is the model's own (log 3, DESIGN CHOICE). -/
def Obligations.NothingChangesBetweenCommands : Prop :=
  ∀ s : State, s.inputs = [] →
    step s = .next { s with events := [], resp := none }

/-- Rule R53, with rules R220 and R221: the reset input gives every register of both channels its reset value,
whatever the state, the clock and the sense inputs, with no driver event; `State.reset` holds the same values. -/
def Obligations.ResetGivesEveryRegisterItsResetValue : Prop :=
  let k : Channel 32 64 :=
    { distance := 0#32, position := 0#32, direction := .none, active := false, curcount := 21376#32,
      nextcount := 21376#32, rampstep := 0#32, rampfloor := 0#32, compdue := true, lastedge := 0#32,
      jogdist := 0#32, hfirst := true, hstate := false, cfgSpr := 200#32, cfgMinrpm := 30#32,
      cfgMaxrpm := 300#32, cfgAccel := 600#32, zerocount := 21376#32, mincount := 1000#32,
      maxcount := 10000#32, linkAttached := false, linkMajor := 0#32, linkMinor := 0#32, linkErr := 0#64,
      linkSign := .none, linkTarget := 0#32 }
  State.reset.ch 0 = k ∧ State.reset.ch 1 = k ∧
  ∀ (s : State) (rest : List (PortInput 2 32)), s.inputs = .reset :: rest →
    ∃ t, step s = .next t ∧ t.ch 0 = k ∧ t.ch 1 = k ∧ t.events = [] ∧ t.inputs = rest

/-- Rule R200: every legal command runs to completion and returns `ERR = 0`. -/
def Obligations.EveryLegalCommandCompletes : Prop :=
  ∀ (i : Instr) (s : State), i.wellFormed = true →
    ∃ (t : State) (b : Bool) (v : U32), exec i s = .next t ∧ t.resp = some (.ok b v)

/-! ## The Ramp Engine (40_ramp_engine.md) -/

/-- Rules R109 and R110: SEEDIDLE puts the ramp registers into standstill, writes nothing else, and leaves the reset
state as it was. -/
def Obligations.SeedIdleRestoresStandstill : Prop :=
  (∀ (c : Chan) (s : State),
    (Instr.seedidle c).EncodedAs 0x10#8 0#8 0#32 ∧
    exec (.seedidle c) s =
      .next (s.after c
        { s.ch c with
          rampstep := 0#32
          rampfloor := 0#32
          curcount := (s.ch c).zerocount
          nextcount := (s.ch c).zerocount
          compdue := true }
        [] (.ok false 0#32))) ∧
  exec (.seedidle 0) State.reset = .next { State.reset with resp := some (.ok false 0#32) }

/-- Rules R101, R103, R105 and R111: ACCEL. With `t = CURCOUNT - floor(2 CURCOUNT / (4 (RAMPSTEP + 1) + 1))` it
cruises when the index is saturated or `t` is below `MINCOUNT`, else advances the index and takes `t`; both clamped
to the band. -/
def Obligations.AccelFollowsTheRecurrence : Prop :=
  ∀ (c : Chan) (keep : Bool) (s : State),
    let k := s.ch c
    let n := k.rampstep.toNat
    let cnt := k.curcount.toNat
    let t := cnt - 2 * cnt / (4 * (n + 1) + 1)
    let band := fun x : Nat => BitVec.ofNat 32 (min (max x k.mincount.toNat) k.maxcount.toNat)
    (Instr.accel c keep).EncodedAs 0x11#8 (if keep then 1#8 else 0#8) 0#32 ∧
    exec (.accel c keep) s =
      .next (if n = 2 ^ 32 - 1 ∨ t < k.mincount.toNat then
          s.after c { k with nextcount := band cnt, compdue := keep } [] (.ok false (band cnt))
        else
          s.after c { k with rampstep := BitVec.ofNat 32 (n + 1), nextcount := band t, compdue := keep }
            [] (.ok false (band t)))

/-- Rules R102, R103, R106, R107 and R112: DECEL. Above the ramp floor the delay grows by
`floor(2 CURCOUNT / (4 RAMPSTEP - 1))`, clamped, and the index falls; when the index comes down to the floor, or is
not above it, the motor is stopped. -/
def Obligations.DecelFollowsTheRecurrence : Prop :=
  ∀ (c : Chan) (keep : Bool) (s : State),
    let k := s.ch c
    let n := k.rampstep.toNat
    let cnt := k.curcount.toNat
    let next := BitVec.ofNat 32 (min (max (cnt + 2 * cnt / (4 * n - 1)) k.mincount.toNat) k.maxcount.toNat)
    (Instr.decel c keep).EncodedAs 0x12#8 (if keep then 1#8 else 0#8) 0#32 ∧
    exec (.decel c keep) s =
      .next (if k.rampfloor.toNat < n ∧ n - 1 ≠ k.rampfloor.toNat then
          s.after c { k with nextcount := next, rampstep := BitVec.ofNat 32 (n - 1), compdue := keep }
            [] (.ok false next)
        else
          s.after c
            { k with
              direction := .none
              nextcount := k.zerocount
              rampstep := 0#32
              rampfloor := 0#32
              compdue := keep }
            [] (.ok true k.zerocount))

/-- Rule R108, at any register widths: the virtual ramp of a channel is the raw acceleration recurrence iterated from
`ZEROCOUNT`, `d i` being the delay after `i` virtual steps. It ends at the first `n` at which the delay is not above
`MAXCOUNT`, the recurrence no longer moves, or one ramp step would jump below `MINCOUNT`, and `n` is at most
`ZEROCOUNT`. -/
def Obligations.VirtualRampIsTheIteratedRecurrence : Prop :=
  ∀ (w we : Nat) (k : Channel w we), ∃ d : Nat → Nat,
    d 0 = k.zerocount.toNat ∧
    (∀ i, d (i + 1) = d i - 2 * d i / (4 * (i + 1) + 1)) ∧
    k.virtualRamp.1 = d k.virtualRamp.2 ∧
    (∀ i, i < k.virtualRamp.2 →
      k.maxcount.toNat < d i ∧ d (i + 1) ≠ d i ∧ k.mincount.toNat ≤ d (i + 1)) ∧
    (d k.virtualRamp.2 ≤ k.maxcount.toNat ∨ d (k.virtualRamp.2 + 1) = d k.virtualRamp.2 ∨
      d (k.virtualRamp.2 + 1) < k.mincount.toNat) ∧
    k.virtualRamp.2 ≤ k.zerocount.toNat

/-- Rule R114: an acceleration from a delay in the band never lengthens the delay, never takes it below `MINCOUNT`,
and never lowers the index. -/
def Obligations.AccelerationNeverLengthensTheDelay : Prop :=
  ∀ (c : Chan) (keep : Bool) (s : State),
    (s.ch c).mincount.toNat ≤ (s.ch c).curcount.toNat → (s.ch c).curcount.toNat ≤ (s.ch c).maxcount.toNat →
    ∃ t, exec (.accel c keep) s = .next t ∧
      (t.ch c).nextcount.toNat ≤ (s.ch c).curcount.toNat ∧
      (s.ch c).mincount.toNat ≤ (t.ch c).nextcount.toNat ∧
      (s.ch c).rampstep.toNat ≤ (t.ch c).rampstep.toNat ∧
      (t.ch c).rampstep.toNat ≤ (s.ch c).rampstep.toNat + 1

/-! ## The Motion Core (41_motion_core.md) -/

/-- Rule R124: SETDIST writes `DISTANCE` and nothing else, in every state. -/
def Obligations.SetDistWritesOnlyDistance : Prop :=
  ∀ (c : Chan) (steps : S32) (s : State),
    (Instr.setdist c steps).EncodedAs 0x20#8 0#8 steps ∧
    exec (.setdist c steps) s = .next (s.after c { s.ch c with distance := steps } [] (.ok false 0#32))

/-- Rules R125 and R127, encoding: the words of RUN and SCHEDSTEP carry the channel and nothing else. -/
def Obligations.PollWordsCarryOnlyTheChannel : Prop :=
  ∀ c : Chan, (Instr.run c).EncodedAs 0x21#8 0#8 0#32 ∧ (Instr.schedstep c).EncodedAs 0x22#8 0#8 0#32

/-- Rule R125, first branch: RUN at rest (`DISTANCE = 0` and `DIRECTION = None`) writes only `COMPDUE <- 1`, emits
the settle pulse, then the link's if one is attached, and returns `B = 1`. -/
def Obligations.RunAtRestOnlySettles : Prop :=
  ∀ (c : Chan) (s : State), (s.ch c).distance = 0#32 → (s.ch c).direction = .none →
    exec (.run c) s =
      .next (s.after c { s.ch c with compdue := true } (.emit c .none :: s.settleEvents c) (.ok true 0#32))

/-- Rule R125, second branch: RUN on an idle channel with distance left and a recomputation owed wakes the driver,
seeds the ramp with the virtual ramp of rule R108, picks the direction from the sign of the distance, and then does
what SCHEDSTEP does. -/
def Obligations.RunStartsAMoveThenCompares : Prop :=
  ∀ (c : Chan) (s : State),
    (s.ch c).compdue = true → (s.ch c).direction = .none → (s.ch c).distance ≠ 0#32 →
    let k := s.ch c
    let seed := BitVec.ofNat 32 (min (max k.virtualRamp.1 k.mincount.toNat) k.maxcount.toNat)
    ∃ t,
      exec (.run c) s = .next t ∧
      exec (.schedstep c)
        (s.put c
          { k with
            active := true
            rampstep := BitVec.ofNat 32 k.virtualRamp.2
            rampfloor := BitVec.ofNat 32 k.virtualRamp.2
            curcount := seed
            nextcount := seed
            compdue := false
            direction := if 0 < k.distance.toInt then .counterClockwise else .clockwise }
          (s.ch (other c)) (s.enableEvents c)) = .next t

/-- Rule R125, third and fourth branch: on a moving channel with a recomputation owed, RUN is WAKEUP, then ACCEL with
`keepComputing = 0` when the motor heads toward the target with more distance left than the physical ramp index, else
DECEL with `keepComputing = 0`, then SCHEDSTEP. -/
def Obligations.RunOnAMovingMotorIsWakeRampCompare : Prop :=
  ∀ (c : Chan) (s : State), (s.ch c).compdue = true → (s.ch c).direction ≠ .none →
    let k := s.ch c
    let ramp : Instr :=
      if k.distance.toInt.sign = k.direction.unit ∧
          (k.rampstep.toNat : Int) - k.rampfloor.toNat < k.distance.toInt.natAbs then
        .accel c false
      else .decel c false
    ∃ u v t, exec (.wakeup c) s = .next u ∧ exec ramp u = .next v ∧ exec (.schedstep c) v = .next t ∧
      exec (.run c) s = .next t

/-- Rule R125: with no recomputation owed, RUN on a channel that is not at rest is SCHEDSTEP. -/
def Obligations.RunWithNothingOwedOnlyCompares : Prop :=
  ∀ (c : Chan) (s : State), (s.ch c).compdue = false →
    ¬ ((s.ch c).distance = 0#32 ∧ (s.ch c).direction = .none) →
    ∃ t, exec (.run c) s = .next t ∧ exec (.schedstep c) s = .next t

/-- Rules R126 and R127, not yet due: SCHEDSTEP writes no register and emits the settle pulses. -/
def Obligations.SchedStepBeforeTheDelaySettles : Prop :=
  ∀ (c : Chan) (s : State), (s.now - (s.ch c).lastedge).toNat < (s.ch c).curcount.toNat →
    exec (.schedstep c) s = .next (s.after c (s.ch c) (.emit c .none :: s.settleEvents c) (.ok false 0#32))

/-- Rules R126 and R127, due with `DIRECTION = None`: nothing moves, but the timestamp is taken, `NEXTCOUNT` rolled
into `CURCOUNT` and a recomputation owed. -/
def Obligations.SchedStepWhileIdleTakesTheTimestamp : Prop :=
  ∀ (c : Chan) (s : State), (s.ch c).curcount.toNat ≤ (s.now - (s.ch c).lastedge).toNat →
    (s.ch c).direction = .none →
    exec (.schedstep c) s =
      .next (s.after c
        { s.ch c with lastedge := s.now, curcount := (s.ch c).nextcount, compdue := true }
        (.emit c .none :: s.settleEvents c) (.ok false 0#32))

/-- Rules R126 and R127, a physical step without a link: `DISTANCE` and `POSITION` move by one modulo `2^32`, the step
is emitted in the channel's direction, and the timestamp, `CURCOUNT` and `COMPDUE` are updated. -/
def Obligations.SchedStepMovesOneStep : Prop :=
  ∀ (c : Chan) (s : State), (s.ch c).curcount.toNat ≤ (s.now - (s.ch c).lastedge).toNat →
    (s.ch c).direction ≠ .none → (s.ch c).linkAttached = false →
    let k := s.ch c
    let ccw := k.direction = .counterClockwise
    exec (.schedstep c) s =
      .next (s.after c
        { k with
          distance := if ccw then k.distance - 1#32 else k.distance + 1#32
          position := if ccw then k.position + 1#32 else k.position - 1#32
          lastedge := s.now
          curcount := k.nextcount
          compdue := true }
        [.emit c k.direction] (.ok false 0#32))

/-- Rules R73, R126 and R153, a physical step with a link: after the primary's own step and event, the accumulator
loses `LINK_MINOR`; if it becomes negative the secondary's driver is woken, the secondary steps, its `POSITION` moves
and `LINK_MAJOR` is added back; else, and with `LINK_MAJOR = 0` without touching the accumulator, the secondary gets
its settle pulse. No other register of the secondary is written. -/
def Obligations.SchedStepDrivesTheLink : Prop :=
  ∀ (c : Chan) (s : State), (s.ch c).curcount.toNat ≤ (s.now - (s.ch c).lastedge).toNat →
    (s.ch c).direction ≠ .none → (s.ch c).linkAttached = true →
    let k := s.ch c
    let o := s.ch (other c)
    let ccw := k.direction = .counterClockwise
    let stepped : Channel 32 64 :=
      { k with
        distance := if ccw then k.distance - 1#32 else k.distance + 1#32
        position := if ccw then k.position + 1#32 else k.position - 1#32
        lastedge := s.now
        curcount := k.nextcount
        compdue := true }
    let err := k.linkErr - k.linkMinor.setWidth 64
    exec (.schedstep c) s =
      .next (
        if k.linkMajor = 0#32 then
          s.after c stepped [.emit c k.direction, .emit (other c) .none] (.ok false 0#32)
        else if err.toInt < 0 then
          s.afterBoth c { stepped with linkErr := err + k.linkMajor.setWidth 64 }
            { o with
              active := true
              position :=
                match k.linkSign with
                | .counterClockwise => o.position + 1#32
                | .clockwise => o.position - 1#32
                | .none => o.position }
            (.emit c k.direction :: s.enableEvents (other c) ++ [.emit (other c) k.linkSign]) (.ok false 0#32)
        else
          s.after c { stepped with linkErr := err } [.emit c k.direction, .emit (other c) .none]
            (.ok false 0#32))

/-- Rule R128: RUNCONST. The code of `None` settles the output and zeroes `JOGDIST`; the reserved code is the illegal
command of cause 4 (log 8); the code of another direction wakes the driver and, when more than `MAXCOUNT` ticks
have elapsed, emits a step, takes the timestamp and counts it in `JOGDIST`, which is the value returned. -/
def Obligations.RunConstJogsAtTheFixedCadence : Prop :=
  ∀ (c : Chan) (d : BitVec 2) (s : State),
    let k := s.ch c
    let due := k.maxcount.toNat < (s.now - k.lastedge).toNat
    let dir : Dir := if d = 0b11#2 then .clockwise else .counterClockwise
    let jog := if d = 0b11#2 then k.jogdist - 1#32 else k.jogdist + 1#32
    (d ≠ 0b10#2 → (Instr.runconst c d).EncodedAs 0x23#8 (d.setWidth 8) 0#32) ∧
    exec (.runconst c d) s =
      .next (
        if d = 0b10#2 then { s with resp := some ⟨true, false, 4#32⟩ }
        else if d = 0b00#2 then s.after c { k with jogdist := 0#32 } [.emit c .none] (.ok false 0#32)
        else if due then
          s.after c { k with active := true, lastedge := s.now, jogdist := jog }
            (s.enableEvents c ++ [.emit c dir]) (.ok false jog)
        else s.after c { k with active := true } (s.enableEvents c ++ [.emit c .none]) (.ok false k.jogdist))

/-- Rules R129, R130 and R131: ISRUNNING, ATTARGET and ISACTIVE return their flag in `B` and change nothing. -/
def Obligations.QueriesReturnTheirFlag : Prop :=
  ∀ (c : Chan) (s : State),
    let k := s.ch c
    (Instr.isrunning c).EncodedAs 0x24#8 0#8 0#32 ∧
    exec (.isrunning c) s = .next (s.after c k [] (.ok (decide (k.direction ≠ .none)) 0#32)) ∧
    (Instr.attarget c).EncodedAs 0x25#8 0#8 0#32 ∧
    exec (.attarget c) s = .next (s.after c k [] (.ok (decide (k.distance = 0#32)) 0#32)) ∧
    (Instr.isactive c).EncodedAs 0x26#8 0#8 0#32 ∧
    exec (.isactive c) s = .next (s.after c k [] (.ok k.active 0#32))

/-- Rules R122 and R132: WAKEUP enables the driver, with an event only if it was not enabled; issued again it changes
nothing and produces no event. -/
def Obligations.WakeUpEnablesTheDriverOnce : Prop :=
  ∀ (c : Chan) (s : State),
    (Instr.wakeup c).EncodedAs 0x27#8 0#8 0#32 ∧
    exec (.wakeup c) s =
      .next (s.after c { s.ch c with active := true }
        (if (s.ch c).active then [] else [.enable c]) (.ok false 0#32)) ∧
    ∃ t, exec (.wakeup c) s = .next t ∧ exec (.wakeup c) t = .next t

/-- Rules R123 and R133: RELEASE disables the driver, with an event only if it was enabled; it writes nothing else, so
it stops no move; issued again it changes nothing and produces no event. -/
def Obligations.ReleaseDisablesTheDriverOnce : Prop :=
  ∀ (c : Chan) (s : State),
    (Instr.release c).EncodedAs 0x28#8 0#8 0#32 ∧
    exec (.release c) s =
      .next (s.after c { s.ch c with active := false }
        (if (s.ch c).active then [.disable c] else []) (.ok false 0#32)) ∧
    ∃ t, exec (.release c) s = .next t ∧ exec (.release c) t = .next t

/-! ## The Synchronization Engine (42_sync_engine.md) -/

/-- Rule R151: SYNC computes the six link registers from `DISTANCE[c]`, `POSITION[o]` and the target, on mathematical
integers, and writes nothing else. -/
def Obligations.SyncAttachesTheLink : Prop :=
  ∀ (c : Chan) (target : S32) (s : State),
    let k := s.ch c
    let diff := target.toInt - (s.ch (other c)).position.toInt
    (Instr.sync c target).EncodedAs 0x30#8 0#8 target ∧
    ∃ major minor : U32, ∃ err : BitVec 64,
      (major.toNat : Int) = |k.distance.toInt| ∧ (minor.toNat : Int) = |diff| ∧ err.toInt = major.toNat / 2 ∧
      exec (.sync c target) s =
        .next (s.after c
          { k with
            linkAttached := true
            linkMajor := major
            linkMinor := minor
            linkErr := err
            linkSign := if 0 < diff then .counterClockwise else if diff < 0 then .clockwise else .none
            linkTarget := target }
          [] (.ok false 0#32))

/-- Rule R152: ENDSYNC clears `LINK_ATTACHED` and writes nothing else. -/
def Obligations.EndSyncOnlyDetaches : Prop :=
  ∀ (c : Chan) (s : State),
    (Instr.endsync c).EncodedAs 0x31#8 0#8 0#32 ∧
    exec (.endsync c) s = .next (s.after c { s.ch c with linkAttached := false } [] (.ok false 0#32))

/-! ## The Homing Engine (43_homing_engine.md) -/

/-- Rule R166: REFERENCING wakes the driver; with the sense input asserted it zeroes `POSITION`, re-arms `HFIRST` and
returns `B = 1`; else on the first call of a seek, or when more than `MAXCOUNT` ticks have elapsed, it takes one step
backward; else it emits the settle pulse. -/
def Obligations.ReferencingSeeksUntilTheSenseInputAsserts : Prop :=
  ∀ (c : Chan) (s : State),
    let k := s.ch c
    (Instr.referencing c).EncodedAs 0x40#8 0#8 0#32 ∧
    exec (.referencing c) s =
      .next (
        if s.senseOf c = true then
          s.after c { k with active := true, position := 0#32, hfirst := true, hstate := true }
            (s.enableEvents c ++ [.emit c .none]) (.ok true 0#32)
        else if k.hfirst = true ∨ k.maxcount.toNat < (s.now - k.lastedge).toNat then
          s.after c
            { k with
              active := true
              position := k.position - 1#32
              lastedge := s.now
              hfirst := false
              hstate := false }
            (s.enableEvents c ++ [.emit c .clockwise]) (.ok false 0#32)
        else
          s.after c { k with active := true, hstate := false } (s.enableEvents c ++ [.emit c .none])
            (.ok false 0#32))

/-! ## Configuration and register access (44_config_and_access.md) -/

/-- Rules R178 to R183: each setter writes its configuration register and the three derived counts when the value is
legal, writes nothing when it is not, and answers the same. -/
def Obligations.SettersAcceptOnlyLegalValues : Prop :=
  ∀ (c : Chan) (v : U32) (s : State),
    let k := s.ch c
    let derived := fun k : Channel 32 64 =>
      { k with
        zerocount := Params.platform.zeroCountOf k.cfgSpr k.cfgAccel
        mincount := Params.platform.countOf k.cfgMaxrpm k.cfgSpr
        maxcount := Params.platform.countOf k.cfgMinrpm k.cfgSpr }
    (Instr.setspr c v).EncodedAs 0x50#8 0#8 v ∧
    exec (.setspr c v) s =
      .next (s.after c (if v ≠ 0#32 then derived { k with cfgSpr := v } else k) [] (.ok false 0#32)) ∧
    (Instr.setminrpm c v).EncodedAs 0x51#8 0#8 v ∧
    exec (.setminrpm c v) s =
      .next (s.after c
        (if v ≠ 0#32 ∧ v.toNat < k.cfgMaxrpm.toNat then derived { k with cfgMinrpm := v } else k)
        [] (.ok false 0#32)) ∧
    (Instr.setmaxrpm c v).EncodedAs 0x52#8 0#8 v ∧
    exec (.setmaxrpm c v) s =
      .next (s.after c
        (if k.cfgMinrpm.toNat < v.toNat then derived { k with cfgMaxrpm := v } else k)
        [] (.ok false 0#32)) ∧
    (Instr.setaccel c v).EncodedAs 0x53#8 0#8 v ∧
    exec (.setaccel c v) s =
      .next (s.after c
        (if v ≠ 0#32 ∧ k.direction = .none then derived { k with cfgAccel := v } else k)
        [] (.ok false 0#32))

/-- Rule R176: with both arguments at least 1 the delay at `rpm` is the ticks per minute divided by the steps per
minute, rounded down and clamped to `1 .. 2^32 - 1`, and it does not increase when the RPM increases. -/
def Obligations.CountOfIsTheClampedQuotient : Prop :=
  ∀ rpm spr : U32, 1 ≤ rpm.toNat → 1 ≤ spr.toNat →
    (Params.platform.countOf rpm spr).toNat =
      max 1 (min (2 ^ 32 - 1) (60000000 / (rpm.toNat * spr.toNat))) ∧
    ∀ rpm' : U32, rpm.toNat ≤ rpm'.toNat →
      (Params.platform.countOf rpm' spr).toNat ≤ (Params.platform.countOf rpm spr).toNat

/-- Rules R175 and R177: with both arguments at least 1 the starting delay is the largest integer `r` with
`r * r <= 54837120000000 div (spr * accel)`, clamped to `1 .. 2^32 - 1`. -/
def Obligations.ZeroCountOfIsTheClampedFloorRoot : Prop :=
  ∀ spr accel : U32, 1 ≤ spr.toNat → 1 ≤ accel.toNat →
    ∃ r : Nat, r * r ≤ 54837120000000 / (spr.toNat * accel.toNat) ∧
      54837120000000 / (spr.toNat * accel.toNat) < (r + 1) * (r + 1) ∧
      (Params.platform.zeroCountOf spr accel).toNat = max 1 (min (2 ^ 32 - 1) r)

/-- Rule R184: NOP answers and changes nothing; the all-zero word is `NOP 0`. -/
def Obligations.NopOnlyAnswers : Prop :=
  (∀ (c : Chan) (s : State),
    (Instr.nop c).EncodedAs 0x00#8 0#8 0#32 ∧
    exec (.nop c) s = .next (s.after c (s.ch c) [] (.ok false 0#32))) ∧
  decode 0#64 = .ok (.nop 0)

/-- Rules R185 and R187: RDREG returns the register word its index names and changes nothing; an index above 27 is the
illegal command of cause 5 (log 8). -/
def Obligations.RdregReturnsTheIndexedRegister : Prop :=
  ∀ (c : Chan) (i : BitVec 8) (s : State),
    let k := s.ch c
    let bit := fun b : Bool => if b then 1#32 else 0#32
    let code := fun d : Dir => match d with | .none => 0#32 | .counterClockwise => 1#32 | .clockwise => 3#32
    let words : List U32 :=
      [k.distance, k.position, code k.direction, bit k.active, k.curcount, k.nextcount, k.rampstep, k.rampfloor,
       bit k.compdue, k.lastedge, k.jogdist, bit k.hfirst, bit k.hstate, k.cfgSpr, k.cfgMinrpm, k.cfgMaxrpm,
       k.cfgAccel, k.zerocount, k.mincount, k.maxcount, bit k.linkAttached, k.linkMajor, k.linkMinor,
       k.linkErr.setWidth 32, (k.linkErr >>> 32).setWidth 32, code k.linkSign, k.linkTarget, k.status]
    (i.toNat ≤ 27 → (Instr.rdreg c i).EncodedAs 0x60#8 i 0#32) ∧
    (∀ v, words[i.toNat]? = some v → exec (.rdreg c i) s = .next (s.after c k [] (.ok false v))) ∧
    (27 < i.toNat → exec (.rdreg c i) s = .next { s with resp := some ⟨true, false, 5#32⟩ }) ∧
    words.length = 28

/-- Rule R48: the bits of the `STATUS` view. -/
def Obligations.StatusPacksTheFlags : Prop :=
  ∀ k : Channel 32 64,
    k.status.getLsbD 0 = decide (k.direction ≠ .none) ∧
    k.status.getLsbD 1 = decide (k.distance = 0#32) ∧
    k.status.getLsbD 2 = k.active ∧
    k.status.getLsbD 3 = k.compdue ∧
    k.status.getLsbD 4 = k.hfirst ∧
    k.status.getLsbD 5 = k.hstate ∧
    k.status.getLsbD 6 = k.linkAttached ∧
    k.status.getLsbD 7 = false ∧
    k.status.extractLsb' 8 2 = k.direction.code ∧
    k.status.extractLsb' 10 22 = 0#22

/-- Rule R188: WRPOS writes `POSITION` and nothing else, in every state. -/
def Obligations.WrposWritesOnlyPosition : Prop :=
  ∀ (c : Chan) (v : S32) (s : State),
    (Instr.wrpos c v).EncodedAs 0x61#8 0#8 v ∧
    exec (.wrpos c v) s = .next (s.after c { s.ch c with position := v } [] (.ok false 0#32))

/-! ## Invariants (10_state.md) -/

/-- Rules R35 to R41, R43, R45, R46 and R52 (e): from every state whose two channels are legal, whatever comes next on
the ports, a step gives a state whose two channels are legal. -/
def Obligations.EveryStepKeepsTheInvariant : Prop :=
  ∀ s t : State, s.Inv → step s = .next t → t.Inv

/-- Rule R53: the reset state meets the invariant. -/
def Obligations.ResetMeetsTheInvariant : Prop := State.reset.Inv

/-- Rule R41: in a legal channel `1 <= MINCOUNT <= MAXCOUNT`. -/
def Obligations.MinCountIsAtMostMaxCount : Prop :=
  ∀ k : Channel 32 64, k.ConfigLegal → k.CountsDerived Params.platform →
    1 ≤ k.mincount.toNat ∧ k.mincount.toNat ≤ k.maxcount.toNat

/-- Rule R52 (c), over single commands: while a channel runs its two delays stay in the band, under every command but
the setters SETSPR, SETMINRPM and SETMAXRPM, and but SEEDIDLE, which rule R110 lets reset the ramp under a moving
motor. SETACCEL is no exception, since it is ignored while the motor runs. -/
def Obligations.RunningDelaysStayInTheBand : Prop :=
  ∀ (i : Instr) (s t : State), s.Inv → (∀ c, (s.ch c).BandWhileRunning) →
    (∀ c v, i ≠ .setspr c v ∧ i ≠ .setminrpm c v ∧ i ≠ .setmaxrpm c v ∧ i ≠ .seedidle c) →
    exec i s = .next t → ∀ c, (t.ch c).BandWhileRunning

/-! ## Rules about the whole machine -/

/-- Rule R213: the driver enable is lowered only by the RELEASE command of its channel. -/
def Obligations.OnlyReleaseLowersTheDriverEnable : Prop :=
  ∀ (i : Instr) (s t : State) (c : Chan), exec i s = .next t →
    (s.ch c).active = true → (t.ch c).active = false → i = .release c

/-- Rule R25, with rules R122 and R123: the driver events a command produces turn the `ACTIVE` bits before it into
those after it, so `ACTIVE` mirrors what the driver ports were told. -/
def Obligations.DriverEventsMirrorActive : Prop :=
  ∀ (i : Instr) (s t : State), exec i s = .next t →
    ∃ es, t.events = s.events ++ es ∧
      ∀ c, es.foldl (DriverEvent.enables c) (s.ch c).active = (t.ch c).active

/-- Rule R23: `POSITION` is written only by the comparator of its channel (RUN, SCHEDSTEP), by the other channel's
attached link (RUN, SCHEDSTEP of that channel), by REFERENCING and by WRPOS. -/
def Obligations.PositionHasFourWriters : Prop :=
  ∀ (i : Instr) (s t : State) (c : Chan), exec i s = .next t → (t.ch c).position ≠ (s.ch c).position →
    (i = .run c ∨ i = .schedstep c) ∨
    ((i = .run (other c) ∨ i = .schedstep (other c)) ∧ (s.ch (other c)).linkAttached = true) ∨
    i = .referencing c ∨ ∃ v, i = .wrpos c v

/-- Rules R35 to R41 and R186: the configuration registers are written only by their validating setters; and where the
derived counts are those of the configuration, each changes only under the setters its formula depends on. -/
def Obligations.ConfigurationIsWrittenOnlyByItsSetters : Prop :=
  ∀ (i : Instr) (s t : State) (c : Chan), exec i s = .next t →
    ((∀ v, i ≠ .setspr c v) → (t.ch c).cfgSpr = (s.ch c).cfgSpr) ∧
    ((∀ v, i ≠ .setminrpm c v) → (t.ch c).cfgMinrpm = (s.ch c).cfgMinrpm) ∧
    ((∀ v, i ≠ .setmaxrpm c v) → (t.ch c).cfgMaxrpm = (s.ch c).cfgMaxrpm) ∧
    ((∀ v, i ≠ .setaccel c v) → (t.ch c).cfgAccel = (s.ch c).cfgAccel) ∧
    ((s.ch c).CountsDerived Params.platform →
      ((∀ v, i ≠ .setspr c v ∧ i ≠ .setaccel c v) → (t.ch c).zerocount = (s.ch c).zerocount) ∧
      ((∀ v, i ≠ .setspr c v ∧ i ≠ .setmaxrpm c v) → (t.ch c).mincount = (s.ch c).mincount) ∧
      ((∀ v, i ≠ .setspr c v ∧ i ≠ .setminrpm c v) → (t.ch c).maxcount = (s.ch c).maxcount))

/-- Rules R64 and R168: the sense inputs change nothing in what a command other than REFERENCING does, and REFERENCING
reads only the one of its channel. -/
def Obligations.SenseIsReadOnlyByReferencing : Prop :=
  ∀ (i : Instr) (s t : State) (v : BitVec 2),
    (∀ c : Chan, i = .referencing c → v.getLsbD c = s.sense.getLsbD c) →
    exec i s = .next t → exec i { s with sense := v } = .next { t with sense := v }

/-- Rules R20, R152 and R155: a command on channel `c` that no link carries to the other channel leaves every register
of the other channel as it was and sends no event to its port; and, but for SYNC, which reads `POSITION[o]`, what it
does does not depend on the other channel's registers. A link carries only RUN and SCHEDSTEP of its primary. -/
def Obligations.UnlinkedCommandsKeepToTheirChannel : Prop :=
  ∀ (i : Instr) (s t : State),
    ((s.ch i.chan).linkAttached = false ∨ (i ≠ .run i.chan ∧ i ≠ .schedstep i.chan)) → exec i s = .next t →
    t.ch (other i.chan) = s.ch (other i.chan) ∧
    (∃ es, t.events = s.events ++ es ∧ ∀ e ∈ es, e.chan = i.chan) ∧
    ((∀ v, i ≠ .sync i.chan v) →
      ∀ o : Channel 32 64, exec i (s.setCh (other i.chan) o) = .next (t.setCh (other i.chan) o))

/-- Rule R154, last sentence: every RUN or SCHEDSTEP of a primary with an attached link produces exactly one
`EMIT(c, ·)` followed by exactly one `EMIT(o, ·)`; the other events are `ENABLE`s. -/
def Obligations.LinkedPollServesBothPortsOnce : Prop :=
  ∀ (c : Chan) (i : Instr) (s t : State), (i = .run c ∨ i = .schedstep c) → (s.ch c).linkAttached = true →
    exec i s = .next t →
    ∃ (d d' : Dir) (a b : List (DriverEvent 2)),
      t.events = s.events ++ a ++ [.emit c d] ++ b ++ [.emit (other c) d'] ∧
      (a = [] ∨ a = [.enable c]) ∧ (b = [] ∨ b = [.enable (other c)])

/-- Rules R126 and R138: a poll emits a physical step on its channel only when at least `MINCOUNT` ticks have elapsed
since `LASTEDGE`, and `LASTEDGE` then takes the poll's clock reading, so two such steps in a row are at least
`MINCOUNT` ticks apart. -/
def Obligations.PollNeverStepsFasterThanMaximumVelocity : Prop :=
  ∀ (c : Chan) (i : Instr) (s t : State), (i = .run c ∨ i = .schedstep c) → s.Inv →
    (s.ch c).BandWhileRunning → exec i s = .next t →
    ∀ es, t.events = s.events ++ es → es.any (DriverEvent.isStepOn c) = true →
      (s.ch c).mincount.toNat ≤ (s.now - (s.ch c).lastedge).toNat ∧ (t.ch c).lastedge = s.now

/-- Rules R128 and R167: after the first step of a seek a homing call, and a constant-speed call always, emits a step
only when more than `MAXCOUNT` ticks have elapsed since `LASTEDGE`, and `LASTEDGE` then takes the call's clock
reading. -/
def Obligations.HomingAndJoggingKeepTheSlowestCadence : Prop :=
  ∀ (c : Chan) (i : Instr) (s t : State),
    ((i = .referencing c ∧ (s.ch c).hfirst = false) ∨ ∃ d, i = .runconst c d) → exec i s = .next t →
    ∀ es, t.events = s.events ++ es → es.any (DriverEvent.isStepOn c) = true →
      (s.ch c).maxcount.toNat < (s.now - (s.ch c).lastedge).toNat ∧ (t.ch c).lastedge = s.now

/-! ## Moves and links over many commands -/

/-- Rules R126 and R137: RUN and SCHEDSTEP keep `POSITION + DISTANCE` of their channel, modulo `2^32`. -/
def Obligations.PollsConserveDistancePlusPosition : Prop :=
  ∀ (c : Chan) (i : Instr) (s t : State), (i = .run c ∨ i = .schedstep c) → exec i s = .next t →
    (t.ch c).position + (t.ch c).distance = (s.ch c).position + (s.ch c).distance

/-- Rule R137 ("Target convergence"), for every state, clock and number of polls: when the host presents only RUN
commands of one channel and the last of them returns `B = 1`, the channel is at rest and its position counter has
changed by exactly the distance it was given, modulo `2^32`. -/
def Obligations.RunReturningTrueHasMovedByTheDistance : Prop :=
  ∀ (c : Chan) (s : State) (n : Nat), s.PresentsOnly [.run c] → 0 < n →
    let t := (s.runTrace n).2
    t.resp = some (.ok true 0#32) →
    (t.ch c).position = (s.ch c).position + (s.ch c).distance ∧ (t.ch c).distance = 0#32 ∧
      (t.ch c).direction = .none

/-- Rule R157, the rasterization ratio: a link as SYNC leaves it, with `0 < LINK_MAJOR` and
`LINK_MINOR <= LINK_MAJOR`, while the host presents only RUN and SCHEDSTEP of the primary. After `p` physical steps of
the primary the secondary has taken `max(0, ceil((p LINK_MINOR - floor(LINK_MAJOR / 2)) / LINK_MAJOR))` steps, and its
`POSITION` has moved by as many unit steps of `LINK_SIGN`. After exactly `LINK_MAJOR` primary steps it has
taken exactly `LINK_MINOR` steps and the accumulator is back at `floor(LINK_MAJOR / 2)`. -/
def Obligations.LinkKeepsTheRasterizationRatio : Prop :=
  ∀ (c : Chan) (s : State) (n : Nat), s.PresentsOnly [.run c, .schedstep c] →
    let k := s.ch c
    let major := k.linkMajor.toNat
    let minor := k.linkMinor.toNat
    k.linkAttached = true → 0 < major → minor ≤ major → (k.linkSign = .none ↔ minor = 0) →
    k.linkErr.toInt = (major / 2 : Nat) →
    let es := (s.runTrace n).1
    let t := (s.runTrace n).2
    let p := es.countP (DriverEvent.isStepOn c)
    let q := es.countP (DriverEvent.isStepOn (other c))
    q = (p * minor + (major - 1 - major / 2)) / major ∧
    (t.ch (other c)).position =
      BitVec.ofInt 32 ((s.ch (other c)).position.toInt + k.linkSign.unit * q) ∧
    (p = major → q = minor ∧ (t.ch c).linkErr = k.linkErr)

/-! ## The parameters (00_scope.md, 93_implementation_defined.md) -/

/-- Rules R5 and R10: the configuration record of this platform holds the values of the table of rule R5, its
conversion functions are the reference definitions, and the other channel of `c` is `1 - c`. -/
def Obligations.PlatformHoldsTheSpecsParameters : Prop :=
  Config.platform.nch = 2 ∧ Config.platform.w = 32 ∧ Config.platform.we = 64 ∧
  Config.platform.params = Params.platform ∧
  Params.platform.timerResolution = 1000000 ∧ Params.platform.kNum = 676 ∧ Params.platform.kDen = 1000 ∧
  Params.platform.resetSpr = 200#32 ∧ Params.platform.resetMinrpm = 30#32 ∧
  Params.platform.resetMaxrpm = 300#32 ∧ Params.platform.resetAccel = 600#32 ∧
  (∀ rpm spr : U32, Params.platform.countOf rpm spr = referenceCountOf 1000000 rpm spr) ∧
  (∀ spr accel : U32, Params.platform.zeroCountOf spr accel = referenceZeroCountOf 1000000 676 1000 spr accel) ∧
  ∀ c : Chan, (other c).val = 1 - c.val

/-- Rules R5, R53 and R178, for every configuration record: reset gives each channel the record's configuration and
the counts its own conversion functions make of it; and each of the four setters, accepted or not, is a next state
that keeps every channel's counts those of its configuration. -/
def Obligations.EveryPlatformDerivesWithItsOwnParameters : Prop :=
  ∀ cfg : Config,
    (∀ c, let k := (Block.State.reset cfg.params).ch c
      k.CountsDerived cfg.params ∧ k.cfgSpr = cfg.params.resetSpr ∧ k.cfgMinrpm = cfg.params.resetMinrpm ∧
        k.cfgMaxrpm = cfg.params.resetMaxrpm ∧ k.cfgAccel = cfg.params.resetAccel) ∧
    ∀ (c : Fin cfg.nch) (v : U32) (s : Block.State cfg.params), (∀ d, (s.ch d).CountsDerived cfg.params) →
      ∀ o ∈ [execSetspr c v s, execSetminrpm c v s, execSetmaxrpm c v s, execSetaccel c v s],
        ∃ t, o = .next t ∧ ∀ d, (t.ch d).CountsDerived cfg.params
end

