-- ==== Sys2Proof/Laws/Convert.lean ====
section
/-!
SUPPORT. The integer square root of rule R175.
-/

namespace Sys2Proof.Machine

/-- The invariant of the digits: the root lies between the digits found and the digits found plus what is left. -/
theorem isqrtDigits_spec (k x r : Nat) (h : r * r ≤ x) (h' : x < (r + 2 ^ k) * (r + 2 ^ k)) :
    isqrtDigits k x r * isqrtDigits k x r ≤ x ∧ x < (isqrtDigits k x r + 1) * (isqrtDigits k x r + 1) := by
  induction k generalizing r with
  | zero =>
    simp only [isqrtDigits]
    exact ⟨h, by simpa using h'⟩
  | succ k ih =>
    unfold isqrtDigits
    split
    · refine ih _ (by assumption) ?_
      rw [show r + 2 ^ k + 2 ^ k = r + 2 ^ (k + 1) by rw [Nat.pow_succ]; omega]
      exact h'
    · exact ih _ h (by omega)

/-- Rule R175: `isqrt x` is the largest `r` with `r * r <= x`. -/
theorem isqrt_spec (x : Nat) : isqrt x * isqrt x ≤ x ∧ x < (isqrt x + 1) * (isqrt x + 1) := by
  apply isqrtDigits_spec
  · simp
  · have h := Nat.lt_log2_self (n := x)
    have : 2 ^ (x.log2 + 1) ≤ 2 ^ (x.log2 / 2 + 1) * 2 ^ (x.log2 / 2 + 1) := by
      rw [← Nat.pow_add]
      exact Nat.pow_le_pow_right (by omega) (by omega)
    simpa using lt_of_lt_of_le h this

/-- U4: the constant of rule R177, for parameters whose quotient is a whole number. -/
theorem zeroCountScale_of_dvd {t n d : Nat} (hd : 0 < d) (h : d ∣ n * t) :
    zeroCountScale t n d = (n * t / d) ^ 2 * 120 := if_pos ⟨hd, Nat.mod_eq_zero_of_dvd h⟩

/-- Rule R177 and U4: the constant of this platform. -/
@[simp] theorem zeroCountScale_platform : zeroCountScale 1000000 676 1000 = 54837120000000 := by decide

end Sys2Proof.Machine
end

