-- ==== Sys2Proof/Laws/State.lean ====
section
/-!
SUPPORT. One lemma per field per update of the state, so that no later proof unfolds a record update.
-/

namespace Sys2Proof.Machine

variable {nch w we : Nat} {par : Params nch w we} {par₂ : Params 2 w we}

/-! The other channel. -/

theorem other_eq_rev (c : Fin 2) : other c = c.rev := rfl
@[simp] theorem other_other (c : Fin 2) : other (other c) = c := by revert c; decide
@[simp] theorem other_ne (c : Fin 2) : other c ≠ c := by revert c; decide
@[simp] theorem ne_other (c : Fin 2) : c ≠ other c := by revert c; decide

/-- A channel is the one addressed or the other one. -/
theorem eq_or_other (c d : Fin 2) : d = c ∨ d = other c := by revert c d; decide

/-! The registers of a channel after each update. -/

@[simp] theorem ch_setCh (s : Block.State par) (c : Fin nch) (k : Channel w we) : (s.setCh c k).ch c = k := by
  simp [Block.State.ch, Block.State.setCh]
theorem ch_setCh_ne (s : Block.State par) {c d : Fin nch} (h : c ≠ d) (k : Channel w we) :
    (s.setCh c k).ch d = s.ch d := by
  simp [Block.State.ch, Block.State.setCh, Vector.getElem_set_ne, Fin.val_ne_of_ne h]
@[simp] theorem ch_setCh_other (s : Block.State par₂) (c : Fin 2) (k : Channel w we) :
    (s.setCh c k).ch (other c) = s.ch (other c) := ch_setCh_ne s (ne_other c) k
@[simp] theorem ch_other_setCh (s : Block.State par₂) (c : Fin 2) (k : Channel w we) :
    (s.setCh (other c) k).ch c = s.ch c := ch_setCh_ne s (other_ne c) k
@[simp] theorem ch_append (s : Block.State par) (e : DriverEvent nch) (c : Fin nch) : (s.append e).ch c = s.ch c := rfl
@[simp] theorem ch_driverEmit (s : Block.State par) (d : Fin nch) (r : Dir) (c : Fin nch) :
    (driverEmit d r s).ch c = s.ch c := rfl
@[simp] theorem ch_respond (s : Block.State par) (b : Bool) (v : U32) (c : Fin nch) :
    (s.respond b v).ch c = s.ch c := rfl
@[simp] theorem ch_illegal (s : Block.State par) (e : IllegalCause) (c : Fin nch) : (s.illegal e).ch c = s.ch c := rfl
@[simp] theorem ch_sample (s : Block.State par) (p : Command nch w) (r : List (PortInput nch w)) (c : Fin nch) :
    (s.sample p r).ch c = s.ch c := rfl
@[simp] theorem ch_idle (s : Block.State par) (c : Fin nch) : s.idle.ch c = s.ch c := rfl
@[simp] theorem ch_applyReset (s : Block.State par) (r : List (PortInput nch w)) (c : Fin nch) :
    (s.applyReset r).ch c = Channel.reset par := by simp [Block.State.ch, Block.State.applyReset]
@[simp] theorem ch_reset (par : Params nch w we) (c : Fin nch) : (Block.State.reset par).ch c = Channel.reset par := by
  simp [Block.State.ch, Block.State.reset]
@[simp] theorem ch_State_reset (c : Chan) : State.reset.ch c = Channel.reset Params.platform := ch_reset _ c
@[simp] theorem ch_put (s : Block.State par₂) (c : Fin 2) (k o : Channel w we) (es : List (DriverEvent 2)) :
    (s.put c k o es).ch c = k := by
  change ((s.setCh c k).setCh (other c) o).ch c = k; simp
@[simp] theorem ch_put_other (s : Block.State par₂) (c : Fin 2) (k o : Channel w we) (es : List (DriverEvent 2)) :
    (s.put c k o es).ch (other c) = o := ch_setCh _ _ _
@[simp] theorem ch_afterBoth (s : Block.State par₂) (c : Fin 2) (k o : Channel w we) (es : List (DriverEvent 2))
    (r : Response) : (s.afterBoth c k o es r).ch c = k := ch_put s c k o es
@[simp] theorem ch_afterBoth_other (s : Block.State par₂) (c : Fin 2) (k o : Channel w we) (es : List (DriverEvent 2))
    (r : Response) : (s.afterBoth c k o es r).ch (other c) = o := ch_put_other s c k o es
@[simp] theorem ch_after (s : Block.State par₂) (c : Fin 2) (k : Channel w we) (es : List (DriverEvent 2))
    (r : Response) : (s.after c k es r).ch c = k := ch_put s c k _ es
@[simp] theorem ch_after_other (s : Block.State par₂) (c : Fin 2) (k : Channel w we) (es : List (DriverEvent 2))
    (r : Response) : (s.after c k es r).ch (other c) = s.ch (other c) :=
  ch_put_other s c k _ es

/-! The clock and sense readings after each update. -/

@[simp] theorem now_setCh (s : Block.State par) (c : Fin nch) (k : Channel w we) : (s.setCh c k).now = s.now := rfl
@[simp] theorem now_append (s : Block.State par) (e : DriverEvent nch) : (s.append e).now = s.now := rfl
@[simp] theorem now_driverEmit (s : Block.State par) (c : Fin nch) (d : Dir) : (driverEmit c d s).now = s.now := rfl
@[simp] theorem now_respond (s : Block.State par) (b : Bool) (v : U32) : (s.respond b v).now = s.now := rfl
@[simp] theorem now_illegal (s : Block.State par) (e : IllegalCause) : (s.illegal e).now = s.now := rfl
@[simp] theorem now_sample (s : Block.State par) (p : Command nch w) (r : List (PortInput nch w)) :
    (s.sample p r).now = p.now := rfl
@[simp] theorem now_idle (s : Block.State par) : s.idle.now = s.now := rfl
@[simp] theorem now_applyReset (s : Block.State par) (r : List (PortInput nch w)) : (s.applyReset r).now = s.now := rfl

@[simp] theorem sense_setCh (s : Block.State par) (c d : Fin nch) (k : Channel w we) :
    (s.setCh c k).senseOf d = s.senseOf d := rfl
@[simp] theorem sense_append (s : Block.State par) (e : DriverEvent nch) (d : Fin nch) :
    (s.append e).senseOf d = s.senseOf d := rfl
@[simp] theorem sense_driverEmit (s : Block.State par) (c : Fin nch) (r : Dir) (d : Fin nch) :
    (driverEmit c r s).senseOf d = s.senseOf d := rfl
@[simp] theorem sense_respond (s : Block.State par) (b : Bool) (v : U32) (d : Fin nch) :
    (s.respond b v).senseOf d = s.senseOf d := rfl

/-! The inputs still to come after each update. -/

@[simp] theorem inputs_setCh (s : Block.State par) (c : Fin nch) (k : Channel w we) : (s.setCh c k).inputs = s.inputs :=
    rfl
@[simp] theorem inputs_append (s : Block.State par) (e : DriverEvent nch) : (s.append e).inputs = s.inputs := rfl
@[simp] theorem inputs_driverEmit (s : Block.State par) (c : Fin nch) (d : Dir) :
    (driverEmit c d s).inputs = s.inputs := rfl
@[simp] theorem inputs_respond (s : Block.State par) (b : Bool) (v : U32) : (s.respond b v).inputs = s.inputs := rfl
@[simp] theorem inputs_illegal (s : Block.State par) (e : IllegalCause) : (s.illegal e).inputs = s.inputs := rfl
@[simp] theorem inputs_sample (s : Block.State par) (p : Command nch w) (r : List (PortInput nch w)) :
    (s.sample p r).inputs = r := rfl
@[simp] theorem inputs_idle (s : Block.State par) : s.idle.inputs = s.inputs := rfl
@[simp] theorem inputs_applyReset (s : Block.State par) (r : List (PortInput nch w)) : (s.applyReset r).inputs = r :=
    rfl

/-! The driver events after each update. -/

@[simp] theorem events_setCh (s : Block.State par) (c : Fin nch) (k : Channel w we) : (s.setCh c k).events = s.events :=
    rfl
@[simp] theorem events_append (s : Block.State par) (e : DriverEvent nch) : (s.append e).events = s.events ++ [e] := rfl
@[simp] theorem events_driverEmit (s : Block.State par) (c : Fin nch) (d : Dir) :
    (driverEmit c d s).events = s.events ++ [.emit c d] := rfl
@[simp] theorem events_respond (s : Block.State par) (b : Bool) (v : U32) : (s.respond b v).events = s.events := rfl
@[simp] theorem events_illegal (s : Block.State par) (e : IllegalCause) : (s.illegal e).events = s.events := rfl
@[simp] theorem events_sample (s : Block.State par) (p : Command nch w) (r : List (PortInput nch w)) :
    (s.sample p r).events = [] := rfl
@[simp] theorem events_idle (s : Block.State par) : s.idle.events = [] := rfl
@[simp] theorem events_applyReset (s : Block.State par) (r : List (PortInput nch w)) : (s.applyReset r).events = [] :=
    rfl

/-! The response after each update. -/

@[simp] theorem resp_setCh (s : Block.State par) (c : Fin nch) (k : Channel w we) : (s.setCh c k).resp = s.resp := rfl
@[simp] theorem resp_append (s : Block.State par) (e : DriverEvent nch) : (s.append e).resp = s.resp := rfl
@[simp] theorem resp_driverEmit (s : Block.State par) (c : Fin nch) (d : Dir) : (driverEmit c d s).resp = s.resp := rfl
@[simp] theorem resp_respond (s : Block.State par) (b : Bool) (v : U32) : (s.respond b v).resp = some (.ok b v) := rfl
@[simp] theorem resp_illegal (s : Block.State par) (e : IllegalCause) :
    (s.illegal e).resp = some ⟨true, false, e.code⟩ := rfl
@[simp] theorem resp_sample (s : Block.State par) (p : Command nch w) (r : List (PortInput nch w)) :
    (s.sample p r).resp = none := rfl
@[simp] theorem resp_idle (s : Block.State par) : s.idle.resp = none := rfl
@[simp] theorem resp_applyReset (s : Block.State par) (r : List (PortInput nch w)) : (s.applyReset r).resp = none := rfl

/-! The comparisons with the clock read only the registers named in them. -/

@[simp] theorem elapsed_driverEmit (s : Block.State par) (c d : Fin nch) (r : Dir) :
    (driverEmit d r s).elapsed c = s.elapsed c := by simp [Block.State.elapsed]
@[simp] theorem stepDue_driverEmit (s : Block.State par) (c d : Fin nch) (r : Dir) :
    (driverEmit d r s).stepDue c = s.stepDue c := by simp [Block.State.stepDue]
theorem elapsed_setCh (s : Block.State par) (c : Fin nch) (k : Channel w we) :
    (s.setCh c k).elapsed c = s.now - k.lastedge :=
    by
  simp [Block.State.elapsed]

@[simp] theorem enableEvents_respond (s : Block.State par) (b : Bool) (v : U32) (c : Fin nch) :
    (s.respond b v).enableEvents c = s.enableEvents c := rfl
@[simp] theorem settleEvents_respond (s : Block.State par) (b : Bool) (v : U32) (c : Fin nch) :
    (s.respond b v).settleEvents c = s.settleEvents c := rfl

/-- Two states with the same registers, readings, inputs and outputs are equal. -/
theorem Block.State.eq_of_ch {s t : Block.State par₂} (c : Fin 2) (h : s.ch c = t.ch c)
    (h' : s.ch (other c) = t.ch (other c))
    (hn : s.now = t.now) (hs : s.sense = t.sense) (hi : s.inputs = t.inputs) (he : s.events = t.events)
    (hr : s.resp = t.resp) : s = t := by
  have hc : s.chs = t.chs := by
    apply Vector.ext
    intro i hlt
    rcases eq_or_other c ⟨i, hlt⟩ with e | e
    · rw [← e] at h; exact h
    · rw [← e] at h'; exact h'
  cases s; cases t; simp_all

@[simp] theorem senseField_setCh (s : Block.State par) (c : Fin nch) (k : Channel w we) :
    (s.setCh c k).sense = s.sense := rfl
@[simp] theorem senseField_driverEmit (s : Block.State par) (c : Fin nch) (d : Dir) :
    (driverEmit c d s).sense = s.sense :=
    rfl
@[simp] theorem senseField_respond (s : Block.State par) (b : Bool) (v : U32) : (s.respond b v).sense = s.sense := rfl

/-! The whole next state, field by field. -/

@[simp] theorem now_afterBoth (s : Block.State par₂) (c : Fin 2) (k o : Channel w we) (es : List (DriverEvent 2))
    (r : Response) : (s.afterBoth c k o es r).now = s.now := rfl
@[simp] theorem inputs_afterBoth (s : Block.State par₂) (c : Fin 2) (k o : Channel w we) (es : List (DriverEvent 2))
    (r : Response) : (s.afterBoth c k o es r).inputs = s.inputs := rfl
@[simp] theorem events_afterBoth (s : Block.State par₂) (c : Fin 2) (k o : Channel w we) (es : List (DriverEvent 2))
    (r : Response) : (s.afterBoth c k o es r).events = s.events ++ es := rfl
@[simp] theorem resp_afterBoth (s : Block.State par₂) (c : Fin 2) (k o : Channel w we) (es : List (DriverEvent 2))
    (r : Response) : (s.afterBoth c k o es r).resp = some r := rfl
@[simp] theorem now_after (s : Block.State par₂) (c : Fin 2) (k : Channel w we) (es : List (DriverEvent 2))
    (r : Response) : (s.after c k es r).now = s.now := rfl
@[simp] theorem inputs_after (s : Block.State par₂) (c : Fin 2) (k : Channel w we) (es : List (DriverEvent 2))
    (r : Response) : (s.after c k es r).inputs = s.inputs := rfl
@[simp] theorem events_after (s : Block.State par₂) (c : Fin 2) (k : Channel w we) (es : List (DriverEvent 2))
    (r : Response) : (s.after c k es r).events = s.events ++ es := rfl
@[simp] theorem resp_after (s : Block.State par₂) (c : Fin 2) (k : Channel w we) (es : List (DriverEvent 2))
    (r : Response) : (s.after c k es r).resp = some r := rfl

/-! The normal form `put`: what a shared operation does to the registers and the event list. -/

@[simp] theorem now_put (s : Block.State par₂) (c : Fin 2) (k o : Channel w we) (es : List (DriverEvent 2)) :
    (s.put c k o es).now = s.now := rfl
@[simp] theorem sense_put (s : Block.State par₂) (c d : Fin 2) (k o : Channel w we) (es : List (DriverEvent 2)) :
    (s.put c k o es).senseOf d = s.senseOf d := rfl
@[simp] theorem inputs_put (s : Block.State par₂) (c : Fin 2) (k o : Channel w we) (es : List (DriverEvent 2)) :
    (s.put c k o es).inputs = s.inputs := rfl
@[simp] theorem events_put (s : Block.State par₂) (c : Fin 2) (k o : Channel w we) (es : List (DriverEvent 2)) :
    (s.put c k o es).events = s.events ++ es := rfl
@[simp] theorem resp_put (s : Block.State par₂) (c : Fin 2) (k o : Channel w we) (es : List (DriverEvent 2)) :
    (s.put c k o es).resp = s.resp := rfl

theorem put_self (s : Block.State par₂) (c : Fin 2) : s.put c (s.ch c) (s.ch (other c)) [] = s :=
  Block.State.eq_of_ch c (by simp) (by simp) rfl rfl rfl (by simp) rfl

theorem put_other_comm (s : Block.State par₂) (c : Fin 2) (k o : Channel w we) (es : List (DriverEvent 2)) :
    s.put (other c) k o es = s.put c o k es := by
  have h := ch_put_other s (other c) k o es
  rw [other_other] at h
  exact Block.State.eq_of_ch c (by simpa using h) (by simp) rfl rfl rfl rfl rfl

@[simp] theorem put_put (s : Block.State par₂) (c : Fin 2) (k o k' o' : Channel w we) (es es' : List (DriverEvent 2)) :
    (s.put c k o es).put c k' o' es' = s.put c k' o' (es ++ es') :=
  Block.State.eq_of_ch c (by simp) (by simp) rfl rfl rfl (by simp) rfl

@[simp] theorem setCh_put (s : Block.State par₂) (c : Fin 2) (k o k' : Channel w we) (es : List (DriverEvent 2)) :
    (s.put c k o es).setCh c k' = s.put c k' o es :=
  Block.State.eq_of_ch c (by simp) (by simp) rfl rfl rfl rfl rfl

@[simp] theorem setCh_other_put (s : Block.State par₂) (c : Fin 2) (k o o' : Channel w we) (es : List (DriverEvent 2)) :
    (s.put c k o es).setCh (other c) o' = s.put c k o' es :=
  Block.State.eq_of_ch c (by simp) (by simp) rfl rfl rfl rfl rfl

@[simp] theorem respond_put (s : Block.State par₂) (c : Fin 2) (k o : Channel w we) (es : List (DriverEvent 2))
    (b : Bool)
    (v : U32) : (s.put c k o es).respond b v = s.afterBoth c k o es (.ok b v) := rfl

theorem setCh_eq_put (s : Block.State par₂) (c : Fin 2) (k : Channel w we) :
    s.setCh c k = s.put c k (s.ch (other c)) [] :=
  Block.State.eq_of_ch c (by simp) (by simp) rfl rfl rfl (by simp) rfl

theorem respond_eq_after (s : Block.State par₂) (c : Fin 2) (b : Bool) (v : U32) :
    s.respond b v = s.after c (s.ch c) [] (.ok b v) := by
  rw [Block.State.after, ← respond_put, put_self]

theorem respond_setCh (s : Block.State par₂) (c : Fin 2) (k : Channel w we) (b : Bool) (v : U32) :
    (s.setCh c k).respond b v = s.after c k [] (.ok b v) := by
  rw [setCh_eq_put, respond_put, Block.State.after]

end Sys2Proof.Machine
end

