-- ==== Sys2Proof/Laws/Decode.lean ====
section
/-!
SUPPORT. The fields of a command word (rule R80), and the checks of the decoder one by one.
-/

namespace Sys2Proof

section Fields

variable (op ch arg rsv : BitVec 8) (imm : BitVec 32)

@[simp] theorem fieldOp_commandWord : fieldOp (commandWord op ch arg rsv imm) = op := by
  apply BitVec.eq_of_getLsbD_eq
  intro i hi
  simp only [fieldOp, commandWord, BitVec.getLsbD_extractLsb', BitVec.getLsbD_append]
  simp [hi, show ¬ 56 + i < 32 by omega, show ¬ 56 + i - 32 < 8 by omega, show ¬ 56 + i - 32 - 8 < 8 by omega,
    show ¬ 56 + i - 32 - 8 - 8 < 8 by omega, show 56 + i - 32 - 8 - 8 - 8 = i by omega]

@[simp] theorem fieldCh_commandWord : fieldCh (commandWord op ch arg rsv imm) = ch := by
  apply BitVec.eq_of_getLsbD_eq
  intro i hi
  simp only [fieldCh, commandWord, BitVec.getLsbD_extractLsb', BitVec.getLsbD_append]
  simp [hi, show ¬ 48 + i < 32 by omega, show ¬ 48 + i - 32 < 8 by omega, show ¬ 48 + i - 32 - 8 < 8 by omega,
    show 48 + i - 32 - 8 - 8 = i by omega]

@[simp] theorem fieldArg_commandWord : fieldArg (commandWord op ch arg rsv imm) = arg := by
  apply BitVec.eq_of_getLsbD_eq
  intro i hi
  simp only [fieldArg, commandWord, BitVec.getLsbD_extractLsb', BitVec.getLsbD_append]
  simp [hi, show ¬ 40 + i < 32 by omega, show ¬ 40 + i - 32 < 8 by omega,
    show 40 + i - 32 - 8 = i by omega]

@[simp] theorem fieldRsv_commandWord : fieldRsv (commandWord op ch arg rsv imm) = rsv := by
  apply BitVec.eq_of_getLsbD_eq
  intro i hi
  simp only [fieldRsv, commandWord, BitVec.getLsbD_extractLsb', BitVec.getLsbD_append]
  simp [hi, show ¬ 32 + i < 32 by omega, show 32 + i - 32 = i by omega]

@[simp] theorem fieldImm_commandWord : fieldImm (commandWord op ch arg rsv imm) = imm := by
  apply BitVec.eq_of_getLsbD_eq
  intro i hi
  simp only [fieldImm, commandWord, BitVec.getLsbD_extractLsb', BitVec.getLsbD_append]
  simp [hi]

/-- Rule R80: a word is the command word of its five fields. -/
theorem commandWord_fields (w : BitVec 64) :
    commandWord (fieldOp w) (fieldCh w) (fieldArg w) (fieldRsv w) (fieldImm w) = w := by
  apply BitVec.eq_of_getLsbD_eq
  intro i hi
  simp only [commandWord, fieldOp, fieldCh, fieldArg, fieldRsv, fieldImm, BitVec.getLsbD_extractLsb',
    BitVec.getLsbD_append]
  by_cases h0 : i < 32
  · simp [h0]
  by_cases h1 : i < 40
  · simp [h0, show i - 32 < 8 by omega, show 32 + (i - 32) = i by omega]
  by_cases h2 : i < 48
  · simp [h0, show ¬ i - 32 < 8 by omega, show i - 32 - 8 < 8 by omega, show 40 + (i - 32 - 8) = i by omega]
  by_cases h3 : i < 56
  · simp [h0, show ¬ i - 32 < 8 by omega, show ¬ i - 32 - 8 < 8 by omega, show i - 32 - 8 - 8 < 8 by omega,
      show 48 + (i - 32 - 8 - 8) = i by omega]
  · simp [h0, show ¬ i - 32 < 8 by omega, show ¬ i - 32 - 8 < 8 by omega, show ¬ i - 32 - 8 - 8 < 8 by omega,
      show i - 32 - 8 - 8 - 8 < 8 by omega, show 56 + (i - 32 - 8 - 8 - 8) = i by omega]

end Fields

@[simp] theorem ofByte_byte (op : Opcode) : Opcode.ofByte op.byte = some op := by cases op <;> decide

@[simp] theorem chanOfByte_chanByte (c : Chan) : chanOfByte (chanByte c) = some c := by revert c; decide

/-- Rule R84: the `OP` byte of the opcode found is the byte looked up. -/
theorem byte_of_ofByte {b : BitVec 8} {op : Opcode} (h : Opcode.ofByte b = some op) : op.byte = b := by
  have := List.find?_some h
  simpa using this

/-- Rule R80: the byte of a channel number. -/
theorem chanByte_eq (c : Chan) : chanByte c = if c = 0 then 0#8 else 1#8 := by revert c; decide

/-- Rule R80: the byte of the channel found is the byte looked up. -/
theorem byte_of_chanOfByte {b : BitVec 8} {c : Chan} (h : chanOfByte b = some c) : chanByte c = b := by
  unfold chanOfByte at h
  split at h
  · cases h; simp [chanByte]
  · cases h

/-- Rule R85: an operand is legal when no check of rule R202 finds it illegal. -/
theorem illegalOperand_eq_none (i : Instr) : i.illegalOperand = none ↔ i.wellFormed = true := by
  cases i <;> simp [Instr.illegalOperand, Instr.wellFormed]

/-- Everything the decoder asks of a word that it accepts. -/
theorem decode_ok_iff (w : BitVec 64) (i : Instr) :
    decode w = .ok i ↔ ∃ op c, Opcode.ofByte (fieldOp w) = some op ∧ chanOfByte (fieldCh w) = some c ∧
      reservedBitSet op w = false ∧ i = op.assemble c (fieldArg w) (fieldImm w) ∧ i.wellFormed = true := by
  unfold decode
  constructor
  · intro h
    split at h
    · cases h
    · rename_i op hop
      split at h
      · cases h
      · rename_i c hc
        split at h
        · cases h
        · rename_i hr
          split at h
          · cases h
          · rename_i hi
            cases h
            exact ⟨op, c, hop, hc, by simpa using hr, rfl, (illegalOperand_eq_none _).1 hi⟩
  · rintro ⟨op, c, hop, hc, hr, rfl, hw⟩
    simp [hop, hc, hr, (illegalOperand_eq_none _).2 hw]

@[simp] theorem assemble_opcode (op : Opcode) (c : Chan) (a : BitVec 8) (m : BitVec 32) :
    (op.assemble c a m).opcode = op := by cases op <;> rfl

@[simp] theorem assemble_chan (op : Opcode) (c : Chan) (a : BitVec 8) (m : BitVec 32) :
    (op.assemble c a m).chan = c := by cases op <;> rfl

/-- Rules R81 and R83: the fields of an instruction assemble to it again. -/
theorem assemble_fields (i : Instr) : i.opcode.assemble i.chan i.argByte i.immWord = i := by
  cases i <;> simp [Instr.opcode, Opcode.assemble, Instr.chan, Instr.argByte, Instr.immWord]
  case accel c keep => cases keep <;> decide
  case decel c keep => cases keep <;> decide
  case runconst c d => revert d; decide

/-- Rule R81: no used bit of `ARG` is lost. -/
theorem argByte_assemble (op : Opcode) (c : Chan) (a : BitVec 8) (m : BitVec 32)
    (h : a &&& op.argForm.unusedBits = 0#8) : (op.assemble c a m).argByte = a := by
  cases op <;> simp only [Opcode.argForm, ArgForm.unusedBits] at h <;>
    simp only [Opcode.assemble, Instr.argByte] <;> revert h <;> revert a <;> decide

/-- Rule R83: no used bit of `IMM` is lost. -/
theorem immWord_assemble (op : Opcode) (c : Chan) (a : BitVec 8) (m : BitVec 32)
    (h : op.usesImm = true ∨ m = 0#32) : (op.assemble c a m).immWord = m := by
  cases op <;> simp_all [Opcode.assemble, Instr.immWord, Opcode.usesImm]

/-- Rule R86: an `OP` value no row has names no opcode. -/
theorem ofByte_eq_none_iff (b : BitVec 8) : Opcode.ofByte b = none ↔ ∀ op : Opcode, op.byte ≠ b := by
  unfold Opcode.ofByte
  rw [List.find?_eq_none]
  constructor
  · intro h op
    have := h op (by cases op <;> decide)
    simpa using this
  · intro h op _
    simpa using h op

/-- Rule R202, cause 2: the `CH` values that name no channel. -/
theorem chanOfByte_eq_none_iff (b : BitVec 8) : (chanOfByte b : Option Chan) = none ↔ 2 ≤ b.toNat := by
  simp [chanOfByte, Nat.succ_le_iff]

end Sys2Proof
end

