-- ==== Sys2Proof/Laws/Ops.lean ====
section
/-!
SUPPORT. What each shared operation does, said once: the registers it leaves and the events it adds, in the normal
form `Block.State.put`.
-/

namespace Sys2Proof.Machine

variable {w we : Nat} {par : Params 2 w we}

/-- Rule R126: a step is due. -/
theorem stepDue_iff (s : Block.State par) (c : Fin 2) :
    s.stepDue c = true ↔ (s.ch c).curcount.toNat ≤ (s.now - (s.ch c).lastedge).toNat := decide_eq_true_iff

/-- Rules R128 and R166: the constant cadence is due. -/
theorem cadenceDue_iff (s : Block.State par) (c : Fin 2) :
    s.cadenceDue c = true ↔ (s.ch c).maxcount.toNat < (s.now - (s.ch c).lastedge).toNat := decide_eq_true_iff

/-- Rules R128 and R166: the constant cadence reads `MAXCOUNT`, `LASTEDGE` and the clock only. -/
theorem cadenceDue_put (s : Block.State par) (c : Fin 2) (k o : Channel w we) (es : List (DriverEvent 2)) :
    (s.put c k o es).cadenceDue c = decide (k.maxcount.toNat < (s.now - k.lastedge).toNat) := by
  rw [Bool.eq_iff_iff, cadenceDue_iff, decide_eq_true_iff, ch_put, now_put]

/-- Rule R125: at rest. -/
theorem atRest_iff (k : Channel w we) : k.atRest = true ↔ k.distance = 0#w ∧ k.direction = .none := by
  simp [Channel.atRest, Channel.isAtTarget, Channel.isRunning]

/-- Rules R13, R83 and R185: on this platform the registers are as wide as the fields of the words. -/
@[simp] theorem signedOperand_platform (v : S32) : signedOperand 32 v = v := BitVec.signExtend_eq v
@[simp] theorem unsignedOperand_platform (v : U32) : unsignedOperand 32 v = v := BitVec.setWidth_eq v
@[simp] theorem signedWord_platform (v : BitVec 32) : signedWord v = v := BitVec.signExtend_eq v
@[simp] theorem unsignedWord_platform (v : BitVec 32) : unsignedWord v = v := BitVec.setWidth_eq v
@[simp] theorem linkErrPattern_platform (k : Channel w 64) : k.linkErrPattern = k.linkErr :=
  BitVec.signExtend_eq k.linkErr

/-- Rules R9 and R126: a unit step down and up, on the register. -/
theorem wrapS_unit (x : BitVec w) (d : Dir) (h : d ≠ .none) :
    wrapS w (x.toInt - d.unit) = (if d = .counterClockwise then x - 1#w else x + 1#w) ∧
    wrapS w (x.toInt + d.unit) = (if d = .counterClockwise then x + 1#w else x - 1#w) := by
  have hpos : BitVec.ofInt w 1 = 1#w := by simp
  have hneg : x + BitVec.ofInt w (-1) = x - 1#w := by
    rw [BitVec.sub_eq_add_neg, ← hpos, BitVec.ofInt_neg]
  cases d
  · simp only [Dir.unit, wrapS, reduceCtorEq, if_false, Int.sub_neg, BitVec.ofInt_add, BitVec.ofInt_toInt]
    exact ⟨by rw [hpos], hneg⟩
  · simp only [Dir.unit, wrapS, if_true, Int.sub_eq_add_neg, BitVec.ofInt_add, BitVec.ofInt_toInt]
    exact ⟨hneg, by rw [hpos]⟩
  · exact absurd rfl h

/-- Rule R153: the `s64` wrap does not change a value in range. -/
theorem toInt_wrapS64 (x : Int) (h : -2 ^ 63 ≤ x) (h' : x < 2 ^ 63) : (wrapS 64 x).toInt = x := by
  unfold wrapS
  rw [BitVec.toInt_ofInt]
  exact Int.bmod_eq_of_le (by omega) (by omega)

theorem driverEmit_eq_put (s : Block.State par) (c : Fin 2) (d : Dir) :
    driverEmit c d s = s.put c (s.ch c) (s.ch (other c)) [.emit c d] :=
  Block.State.eq_of_ch c (by simp) (by simp) rfl rfl rfl rfl rfl

theorem driverEmit_other_eq_put (s : Block.State par) (c : Fin 2) (d : Dir) :
    driverEmit (other c) d s = s.put c (s.ch c) (s.ch (other c)) [.emit (other c) d] :=
  Block.State.eq_of_ch c (by simp) (by simp) rfl rfl rfl rfl rfl

/-- Rule R122: the driver is enabled afterwards, with an event only on a change. -/
theorem wakeUp_eq_put (s : Block.State par) (c : Fin 2) :
    wakeUp c s = s.put c { s.ch c with active := true } (s.ch (other c)) (s.enableEvents c) := by
  unfold wakeUp Block.State.enableEvents
  split
  · rename_i h
    have : { s.ch c with active := true } = s.ch c := by rw [← h]
    simp [this, put_self]
  · exact Block.State.eq_of_ch c (by simp) (by simp) rfl rfl rfl rfl rfl

/-- Rule R123: the driver is disabled afterwards, with an event only on a change. -/
theorem release_eq_put (s : Block.State par) (c : Fin 2) :
    release c s = s.put c { s.ch c with active := false } (s.ch (other c))
      (if (s.ch c).active then [.disable c] else []) := by
  unfold release
  split
  · exact Block.State.eq_of_ch c (by simp) (by simp) rfl rfl rfl rfl rfl
  · rename_i h
    have : { s.ch c with active := false } = s.ch c := by
      rw [Bool.not_eq_true] at h
      rw [← h]
    simp [this, put_self]

/-- Rule R154: no register is written. -/
theorem syncSettle_eq_put (s : Block.State par) (c : Fin 2) :
    syncSettle c s = s.put c (s.ch c) (s.ch (other c)) (s.settleEvents c) := by
  unfold syncSettle Block.State.settleEvents
  split
  · exact driverEmit_other_eq_put s c .none
  · exact (put_self s c).symm

/-- Rule R153, a secondary step: only `ACTIVE` and `POSITION` of the secondary are written. -/
theorem secondaryStep_eq_put (s : Block.State par) (c : Fin 2) (d : Dir) :
    secondaryStep (other c) d s = s.put c (s.ch c)
      { s.ch (other c) with active := true, position := wrapS w ((s.ch (other c)).position.toInt + d.unit) }
      (s.enableEvents (other c) ++ [.emit (other c) d]) := by
  have hw : wakeUp (other c) s =
      s.put c (s.ch c) { s.ch (other c) with active := true } (s.enableEvents (other c)) := by
    rw [wakeUp_eq_put, put_other_comm, other_other]
  simp [secondaryStep, hw, driverEmit_other_eq_put]

/-- Rule R153, everything the link can do on a primary step. -/
theorem syncOnPrimaryStep_cases (s : Block.State par) (c : Fin 2) :
    ((s.ch c).linkAttached = false ∧ syncOnPrimaryStep c s = s) ∨
    ((s.ch c).linkAttached = true ∧ (s.ch c).linkMajor = 0#w ∧
      syncOnPrimaryStep c s = s.put c (s.ch c) (s.ch (other c)) [.emit (other c) .none]) ∨
    ((s.ch c).linkAttached = true ∧ (s.ch c).linkMajor ≠ 0#w ∧ 0 ≤ (s.ch c).linkErrLess.toInt ∧
      syncOnPrimaryStep c s =
        s.put c { s.ch c with linkErr := (s.ch c).linkErrLess } (s.ch (other c)) [.emit (other c) .none]) ∨
    ((s.ch c).linkAttached = true ∧ (s.ch c).linkMajor ≠ 0#w ∧ (s.ch c).linkErrLess.toInt < 0 ∧
      syncOnPrimaryStep c s =
        s.put c
          { s.ch c with
            linkErr := wrapS we ((s.ch c).linkErrLess.toInt + (s.ch c).linkMajor.toNat) }
          { s.ch (other c) with
            active := true
            position := wrapS w ((s.ch (other c)).position.toInt + (s.ch c).linkSign.unit) }
          (s.enableEvents (other c) ++ [.emit (other c) (s.ch c).linkSign])) := by
  by_cases ha : (s.ch c).linkAttached = true
  · by_cases hm : (s.ch c).linkMajor = 0#w
    · exact .inr (.inl ⟨ha, hm, by simp [syncOnPrimaryStep, ha, hm, driverEmit_other_eq_put]⟩)
    · by_cases he : (s.ch c).linkErrLess.toInt < 0
      · refine .inr (.inr (.inr ⟨ha, hm, he, ?_⟩))
        simp [syncOnPrimaryStep, ha, hm, he, setCh_eq_put s, secondaryStep_eq_put, Block.State.enableEvents]
      · refine .inr (.inr (.inl ⟨ha, hm, by omega, ?_⟩))
        simp [syncOnPrimaryStep, ha, hm, he, setCh_eq_put s, driverEmit_other_eq_put]
  · exact .inl ⟨by simpa using ha, by simp [syncOnPrimaryStep, ha]⟩

/-- Rule R126, the due arm up to the link. -/
theorem dueStep_eq_put (s : Block.State par) (c : Fin 2) :
    dueStep c s = s.put c ((s.ch c).move.roll s.now) (s.ch (other c)) [.emit c (s.ch c).direction] := by
  have hd : (s.ch c).move.direction = (s.ch c).direction := rfl
  simp [dueStep, setCh_eq_put s, driverEmit_eq_put, hd]

/-- Rule R126, everything the comparator can do before the link: not due, due while idle, a physical step. -/
theorem schedStepCore_cases (s : Block.State par) (c : Fin 2) :
    (s.stepDue c = false ∧ schedStepCore c s =
      s.put c (s.ch c) (s.ch (other c)) (.emit c .none :: s.settleEvents c)) ∨
    (s.stepDue c = true ∧ (s.ch c).direction = .none ∧ schedStepCore c s =
      s.put c ((s.ch c).move.roll s.now) (s.ch (other c)) (.emit c .none :: s.settleEvents c)) ∨
    (s.stepDue c = true ∧ (s.ch c).direction ≠ .none ∧ schedStepCore c s =
      syncOnPrimaryStep c
        (s.put c ((s.ch c).move.roll s.now) (s.ch (other c)) [.emit c (s.ch c).direction])) := by
  have hu : (s.ch c).direction.unit ≠ 0 ↔ (s.ch c).direction ≠ .none := by
    cases (s.ch c).direction <;> decide
  by_cases hd : s.stepDue c = true
  · by_cases hn : (s.ch c).direction = .none
    · refine .inr (.inl ⟨hd, hn, ?_⟩)
      have h0 : Dir.none.unit = 0 := rfl
      have hs : (s.put c ((s.ch c).move.roll s.now) (s.ch (other c)) [.emit c .none]).settleEvents c =
          s.settleEvents c := by simp [Block.State.settleEvents, Channel.roll, Channel.move]
      simp [schedStepCore, hd, h0, dueStep_eq_put, syncSettle_eq_put, hs, hn]
    · exact .inr (.inr ⟨hd, hn, by simp [schedStepCore, hd, hu.2 hn, dueStep_eq_put]⟩)
  · refine .inl ⟨by simpa using hd, ?_⟩
    have hs : (s.put c (s.ch c) (s.ch (other c)) [.emit c .none]).settleEvents c = s.settleEvents c := by
      simp [Block.State.settleEvents]
    simp [schedStepCore, hd, driverEmit_eq_put, syncSettle_eq_put, hs]

/-- Rule R125, the recomputation that is owed. -/
theorem runRecompute_eq_put (s : Block.State par) (c : Fin 2) :
    runRecompute c s =
      if (s.ch c).compdue then
        s.put c (recompute { s.ch c with active := true }) (s.ch (other c)) (s.enableEvents c)
      else s := by
  unfold runRecompute
  split <;> simp [wakeUp_eq_put]

/-- Rule R125, the three branches of a recomputation. -/
theorem recompute_cases (k : Channel w we) :
    (k.direction = .none ∧
      recompute k = { vseed k with direction := Dir.ofUnit k.distance.toInt.sign }) ∨
    (k.direction ≠ .none ∧ k.keepsAccelerating = true ∧ recompute k = accelCore false k) ∨
    (k.direction ≠ .none ∧ k.keepsAccelerating = false ∧ recompute k = decelCore false k) := by
  unfold recompute
  by_cases hd : k.direction = .none
  · exact .inl ⟨hd, by simp [hd, vseed]⟩
  · by_cases ha : k.keepsAccelerating = true
    · exact .inr (.inl ⟨hd, ha, by simp [hd, ha]⟩)
    · exact .inr (.inr ⟨hd, by simpa using ha, by simp [hd, ha]⟩)

/-- Rule R128: a constant-speed poll in a direction other than `None`. -/
theorem jogPoll_cases (s : Block.State par) (c : Fin 2) (d : Dir) :
    (s.cadenceDue c = true ∧ jogPoll c d s =
      s.put c
        { s.ch c with active := true, lastedge := s.now, jogdist := wrapS w ((s.ch c).jogdist.toInt + d.unit) }
        (s.ch (other c)) (s.enableEvents c ++ [.emit c d])) ∨
    (s.cadenceDue c = false ∧ jogPoll c d s =
      s.put c { s.ch c with active := true } (s.ch (other c)) (s.enableEvents c ++ [.emit c .none])) := by
  have hc : (s.put c { s.ch c with active := true } (s.ch (other c)) (s.enableEvents c)).cadenceDue c =
      s.cadenceDue c := by rw [cadenceDue_put]; rfl
  by_cases h : s.cadenceDue c = true
  · exact .inl ⟨h, by simp [jogPoll, wakeUp_eq_put, hc, h, driverEmit_eq_put]⟩
  · exact .inr ⟨by simpa using h, by simp [jogPoll, wakeUp_eq_put, hc, h, driverEmit_eq_put]⟩

/-- Rule R166, the sense input asserted. -/
theorem homeFound_eq_put (s : Block.State par) (c : Fin 2) :
    homeFound c s =
      s.put c { s.ch c with position := 0#w, hfirst := true, hstate := true } (s.ch (other c)) [.emit c .none] := by
  simp [homeFound, setCh_eq_put s, driverEmit_eq_put]

/-- Rule R166, seeking: a step backward or a settle pulse. -/
theorem homeSeek_cases (s : Block.State par) (c : Fin 2) :
    (((s.ch c).hfirst || s.cadenceDue c) = true ∧ homeSeek c s =
      s.put c
        { s.ch c with
          hstate := false
          position := wrapS w ((s.ch c).position.toInt - 1)
          lastedge := s.now
          hfirst := false }
        (s.ch (other c)) [.emit c .clockwise]) ∨
    (((s.ch c).hfirst || s.cadenceDue c) = false ∧ homeSeek c s =
      s.put c { s.ch c with hstate := false } (s.ch (other c)) [.emit c .none]) := by
  have hc : (s.put c { s.ch c with hstate := false } (s.ch (other c)) []).cadenceDue c = s.cadenceDue c := by
    rw [cadenceDue_put]; rfl
  by_cases h : ((s.ch c).hfirst || s.cadenceDue c) = true
  · exact .inl ⟨h, by simp [homeSeek, setCh_eq_put s, hc, h, driverEmit_eq_put, Dir.backward]⟩
  · exact .inr ⟨by simpa using h, by simp [homeSeek, setCh_eq_put s, hc, h, driverEmit_eq_put]⟩

/-- Rule R183: an accepted or a rejected setter. -/
theorem configure_cases (c : Fin 2) (a : Bool) (k : Channel w we) (s : Block.State par) :
    (a = true ∧ configure c a k s = .next (s.after c (derive par k) [] (.ok false 0#32))) ∨
    (a = false ∧ configure c a k s = .next (s.after c (s.ch c) [] (.ok false 0#32))) := by
  cases a
  · exact .inr ⟨rfl, by simp [configure, respond_eq_after s c]⟩
  · exact .inl ⟨rfl, by simp [configure, respond_setCh]⟩

end Sys2Proof.Machine
end

