-- ==== Sys2Proof/Laws/Ramp.lean ====
section
/-!
SUPPORT. What the Ramp Engine's operations do, said once.
-/

namespace Sys2Proof.Machine

variable {w we : Nat}

/-- Rule R103: the clamp never needs to narrow. -/
theorem clamp_toNat (k : Channel w we) (x : Nat) :
    (k.clamp x).toNat = min (max x k.mincount.toNat) k.maxcount.toNat := by
  have := k.maxcount.isLt
  simp only [Channel.clamp, BitVec.toNat_ofNat]
  exact Nat.mod_eq_of_lt (by omega)

/-- Rule R103: with `MINCOUNT <= MAXCOUNT` the clamp lies in the band. -/
theorem clamp_mem_band (k : Channel w we) (x : Nat) (h : k.mincount.toNat ≤ k.maxcount.toNat) :
    k.mincount.toNat ≤ (k.clamp x).toNat ∧ (k.clamp x).toNat ≤ k.maxcount.toNat := by
  rw [clamp_toNat]; omega

/-- Rule R105, everything an acceleration can do: cruise, or advance the index. -/
theorem accelCore_cases (keep : Bool) (k : Channel w we) :
    (k.cruises = true ∧ accelCore keep k = { k with nextcount := k.clamp k.curcount.toNat, compdue := keep }) ∨
    (k.cruises = false ∧ k.rampstep.toNat < 2 ^ w - 1 ∧ accelCore keep k =
      { k with
        rampstep := BitVec.ofNat w (k.rampstep.toNat + 1)
        nextcount := k.clamp (accNext k.curcount.toNat (k.rampstep.toNat + 1))
        compdue := keep }) := by
  by_cases h : k.cruises = true
  · exact .inl ⟨h, by simp [accelCore, h]⟩
  · refine .inr ⟨by simpa using h, ?_, by simp [accelCore, h]⟩
    have := k.rampstep.isLt
    simp only [Channel.cruises, Bool.or_eq_true, beq_iff_eq, not_or] at h
    omega

/-- Rules R106 and R107, everything a deceleration can do: lengthen the delay, or stop. -/
theorem decelCore_cases (keep : Bool) (k : Channel w we) :
    (k.rampfloor.toNat + 1 < k.rampstep.toNat ∧ k.decelStops = false ∧ decelCore keep k =
      { k with
        nextcount := k.clamp (decNext k.curcount.toNat k.rampstep.toNat)
        rampstep := BitVec.ofNat w (k.rampstep.toNat - 1)
        compdue := keep }) ∨
    (k.rampstep.toNat ≤ k.rampfloor.toNat + 1 ∧ k.decelStops = true ∧ decelCore keep k =
      { k with
        direction := .none
        nextcount := k.zerocount
        rampstep := 0#w
        rampfloor := 0#w
        compdue := keep }) := by
  by_cases h : k.rampstep.toNat ≤ k.rampfloor.toNat + 1
  · have hs : k.decelStops = true := by simpa [Channel.decelStops] using h
    refine .inr ⟨h, hs, ?_⟩
    unfold decelCore decelStep
    by_cases hf : k.rampfloor.toNat < k.rampstep.toNat <;> simp [hs, hf, stopRamp]
  · have hs : k.decelStops = false := by simpa [Channel.decelStops] using h
    have hf : k.rampfloor.toNat < k.rampstep.toNat := by omega
    exact .inl ⟨by omega, hs, by simp [decelCore, decelStep, hs, hf]⟩

/-- The registers a recurrence does not write. -/
theorem accelCore_frame (keep : Bool) (k : Channel w we) :
    ∃ step next, accelCore keep k = { k with rampstep := step, nextcount := next, compdue := keep } := by
  rcases accelCore_cases keep k with ⟨_, h⟩ | ⟨_, _, h⟩ <;> exact ⟨_, _, h⟩

/-- The registers a deceleration does not write. -/
theorem decelCore_frame (keep : Bool) (k : Channel w we) :
    ∃ dir step floor next, decelCore keep k =
      { k with direction := dir, rampstep := step, rampfloor := floor, nextcount := next, compdue := keep } := by
  rcases decelCore_cases keep k with ⟨_, _, h⟩ | ⟨_, _, h⟩ <;> exact ⟨_, _, _, _, h⟩

/-- Rule R108: the virtual steps do not outnumber the iterations allowed. -/
theorem vseedLoop_count_le (mn mx fuel x n : Nat) : (vseedLoop mn mx fuel x n).2 ≤ n + fuel := by
  induction fuel generalizing x n with
  | zero => simp [vseedLoop]
  | succ fuel ih =>
    unfold vseedLoop
    have := ih (accNext x (n + 1)) (n + 1)
    split_ifs <;> (try dsimp only) <;> omega

/-- Rule R108: a bound of at least the delay never ends the loop, since every iteration lowers the delay; so the
bound of `Channel.virtualRamp` changes no result. -/
theorem vseedLoop_fuel (mn mx fuel x n : Nat) (h : x ≤ fuel) :
    vseedLoop mn mx (fuel + 1) x n = vseedLoop mn mx fuel x n := by
  induction fuel generalizing x n with
  | zero => simp [vseedLoop, Nat.le_zero.mp h]
  | succ fuel ih =>
    have hle : accNext x (n + 1) ≤ x := Nat.sub_le _ _
    conv_lhs => unfold vseedLoop
    conv_rhs => unfold vseedLoop
    by_cases he : accNext x (n + 1) = x
    · simp [he]
    · rw [ih _ _ (by omega)]

/-- Rule R108: the number of virtual steps is a `u32`. -/
theorem virtualRamp_count_lt (k : Channel w we) : k.virtualRamp.2 < 2 ^ w := by
  have h := vseedLoop_count_le k.mincount.toNat k.maxcount.toNat k.zerocount.toNat k.zerocount.toNat 0
  have := k.zerocount.isLt
  unfold Channel.virtualRamp
  omega

end Sys2Proof.Machine
end

