-- ==== Sys2Proof/Laws/Exec.lean ====
section
/-!
SUPPORT. Everything a command can do, said once: the registers of the addressed channel and of the other one
afterwards, the driver events and the response. A claim about all commands is a case analysis of `exec_effect`.
-/

namespace Sys2Proof.Machine

/-- Rules R126, R153 and R154: what the comparator makes of a poll of channel `c` whose registers are `k` and which
has produced the events `pre`: the registers of `c`, those of the other channel, and all events. -/
inductive PollEffect (s : State) (c : Chan) (k : Channel 32 64) (pre : List (DriverEvent 2)) :
    Channel 32 64 → Channel 32 64 → List (DriverEvent 2) → Prop
  | notDue (h : (s.now - k.lastedge).toNat < k.curcount.toNat) :
      PollEffect s c k pre k (s.ch (other c))
        (pre ++ .emit c .none :: (if k.linkAttached then [.emit (other c) .none] else []))
  | idle (h : k.curcount.toNat ≤ (s.now - k.lastedge).toNat) (hd : k.direction = .none) :
      PollEffect s c k pre (k.move.roll s.now) (s.ch (other c))
        (pre ++ .emit c .none :: (if k.linkAttached then [.emit (other c) .none] else []))
  | alone (h : k.curcount.toNat ≤ (s.now - k.lastedge).toNat) (hd : k.direction ≠ .none)
      (ha : k.linkAttached = false) :
      PollEffect s c k pre (k.move.roll s.now) (s.ch (other c)) (pre ++ [.emit c k.direction])
  | noTarget (h : k.curcount.toNat ≤ (s.now - k.lastedge).toNat) (hd : k.direction ≠ .none)
      (ha : k.linkAttached = true) (hm : k.linkMajor = 0#32) :
      PollEffect s c k pre (k.move.roll s.now) (s.ch (other c))
        (pre ++ [.emit c k.direction] ++ [.emit (other c) .none])
  | secondarySettles (h : k.curcount.toNat ≤ (s.now - k.lastedge).toNat) (hd : k.direction ≠ .none)
      (ha : k.linkAttached = true) (hm : k.linkMajor ≠ 0#32) (he : 0 ≤ k.linkErrLess.toInt) :
      PollEffect s c k pre { k.move.roll s.now with linkErr := k.linkErrLess } (s.ch (other c))
        (pre ++ [.emit c k.direction] ++ [.emit (other c) .none])
  | secondarySteps (h : k.curcount.toNat ≤ (s.now - k.lastedge).toNat) (hd : k.direction ≠ .none)
      (ha : k.linkAttached = true) (hm : k.linkMajor ≠ 0#32) (he : k.linkErrLess.toInt < 0) :
      PollEffect s c k pre
        { k.move.roll s.now with linkErr := wrapS 64 (k.linkErrLess.toInt + k.linkMajor.toNat) }
        { s.ch (other c) with
          active := true
          position := wrapS 32 ((s.ch (other c)).position.toInt + k.linkSign.unit) }
        (pre ++ [.emit c k.direction] ++ (s.enableEvents (other c) ++ [.emit (other c) k.linkSign]))

/-- Rule R126: the comparator has one of the effects of `PollEffect`. -/
theorem schedStepCore_effect (s : State) (c : Chan) (k : Channel 32 64) (pre : List (DriverEvent 2)) :
    ∃ k' o es, schedStepCore c (s.put c k (s.ch (other c)) pre) = s.put c k' o es ∧
      PollEffect s c k pre k' o es := by
  have hen : ∀ k pre, (s.put c k (s.ch (other c)) pre).enableEvents (other c) = s.enableEvents (other c) := by
    intros; simp [Block.State.enableEvents]
  have hse : ∀ k pre, (s.put c k (s.ch (other c)) pre).settleEvents c =
      if k.linkAttached then [.emit (other c) .none] else [] := by
    intros; simp [Block.State.settleEvents]
  rcases schedStepCore_cases (s.put c k (s.ch (other c)) pre) c with g | g | g
  · have g1 := mt (stepDue_iff _ _).2 (by rw [g.1]; decide)
    simp only [ch_put, ch_put_other, put_put, now_put, hse] at g g1
    exact ⟨_, _, _, g.2, .notDue (by omega)⟩
  · have g1 := (stepDue_iff _ _).1 g.1
    simp only [ch_put, ch_put_other, put_put, now_put, hse] at g g1
    exact ⟨_, _, _, g.2.2, .idle g1 g.2.1⟩
  · have g1 := (stepDue_iff _ _).1 g.1
    simp only [ch_put, ch_put_other, put_put, now_put] at g g1
    rw [g.2.2]
    rcases syncOnPrimaryStep_cases
        (s.put c (k.move.roll s.now) (s.ch (other c)) (pre ++ [.emit c k.direction])) c with f | f | f | f <;>
      simp only [ch_put, ch_put_other, put_put, hen] at f
    · rw [f.2]; exact ⟨_, _, _, rfl, .alone g1 g.2.1 f.1⟩
    · rw [f.2.2]; exact ⟨_, _, _, rfl, .noTarget g1 g.2.1 f.1 f.2.1⟩
    · rw [f.2.2.2]; exact ⟨_, _, _, rfl, .secondarySettles g1 g.2.1 f.1 f.2.1 f.2.2.1⟩
    · rw [f.2.2.2]; exact ⟨_, _, _, rfl, .secondarySteps g1 g.2.1 f.1 f.2.1 f.2.2.1⟩

/-- Everything a command can do to the registers of its channel, to those of the other channel and to the driver
ports, with its response. -/
inductive Effect (s : State) : Instr → Channel 32 64 → Channel 32 64 → List (DriverEvent 2) → Response → Prop
  | answer (i : Instr) (r : Response) (hr : i ≠ .run i.chan) (hs : i ≠ .schedstep i.chan) :
      Effect s i (s.ch i.chan) (s.ch (other i.chan)) [] r
  | seedidle (c : Chan) : Effect s (.seedidle c) (seedIdleCore (s.ch c)) (s.ch (other c)) [] (.ok false 0#32)
  | accel (c : Chan) (b : Bool) (r : Response) : Effect s (.accel c b) (accelCore b (s.ch c)) (s.ch (other c)) [] r
  | decel (c : Chan) (b : Bool) (r : Response) : Effect s (.decel c b) (decelCore b (s.ch c)) (s.ch (other c)) [] r
  | setdist (c : Chan) (v : S32) :
      Effect s (.setdist c v) { s.ch c with distance := v } (s.ch (other c)) [] (.ok false 0#32)
  | runAtRest (c : Chan) (hx : (s.ch c).distance = 0#32) (hd : (s.ch c).direction = .none) :
      Effect s (.run c) { s.ch c with compdue := true } (s.ch (other c)) ([.emit c .none] ++ s.settleEvents c)
        (.ok true 0#32)
  | runRecomputes (c : Chan) (k o : Channel 32 64) (es : List (DriverEvent 2))
      (hr : ¬ ((s.ch c).distance = 0#32 ∧ (s.ch c).direction = .none)) (hc : (s.ch c).compdue = true)
      (h : PollEffect s c (recompute { s.ch c with active := true }) (s.enableEvents c) k o es) :
      Effect s (.run c) k o es (.ok false 0#32)
  | runCompares (c : Chan) (k o : Channel 32 64) (es : List (DriverEvent 2))
      (hr : ¬ ((s.ch c).distance = 0#32 ∧ (s.ch c).direction = .none)) (hc : (s.ch c).compdue = false)
      (h : PollEffect s c (s.ch c) [] k o es) : Effect s (.run c) k o es (.ok false 0#32)
  | schedstep (c : Chan) (k o : Channel 32 64) (es : List (DriverEvent 2)) (h : PollEffect s c (s.ch c) [] k o es) :
      Effect s (.schedstep c) k o es (.ok false 0#32)
  | jogStops (c : Chan) (d : BitVec 2) :
      Effect s (.runconst c d) { s.ch c with jogdist := 0#32 } (s.ch (other c)) [.emit c .none] (.ok false 0#32)
  | jogSteps (c : Chan) (d : BitVec 2) (e : Dir) (r : Response) (he : e ≠ .none)
      (h : (s.ch c).maxcount.toNat < (s.now - (s.ch c).lastedge).toNat) :
      Effect s (.runconst c d)
        { s.ch c with active := true, lastedge := s.now, jogdist := wrapS 32 ((s.ch c).jogdist.toInt + e.unit) }
        (s.ch (other c)) (s.enableEvents c ++ [.emit c e]) r
  | jogWaits (c : Chan) (d : BitVec 2) (r : Response) :
      Effect s (.runconst c d) { s.ch c with active := true } (s.ch (other c)) (s.enableEvents c ++ [.emit c .none]) r
  | wakeup (c : Chan) (r : Response) :
      Effect s (.wakeup c) { s.ch c with active := true } (s.ch (other c)) (s.enableEvents c) r
  | release (c : Chan) (r : Response) :
      Effect s (.release c) { s.ch c with active := false } (s.ch (other c))
        (if (s.ch c).active then [.disable c] else []) r
  | sync (c : Chan) (t : S32) (r : Response) :
      Effect s (.sync c t) (linkAttach (s.ch (other c)).position t (s.ch c)) (s.ch (other c)) [] r
  | endsync (c : Chan) (r : Response) :
      Effect s (.endsync c) { s.ch c with linkAttached := false } (s.ch (other c)) [] r
  | homeFound (c : Chan) (r : Response) (h : s.senseOf c = true) :
      Effect s (.referencing c) { s.ch c with active := true, position := 0#32, hfirst := true, hstate := true }
        (s.ch (other c)) (s.enableEvents c ++ [.emit c .none]) r
  | homeSteps (c : Chan) (r : Response) (h : s.senseOf c = false)
      (hd : (s.ch c).hfirst = true ∨ (s.ch c).maxcount.toNat < (s.now - (s.ch c).lastedge).toNat) :
      Effect s (.referencing c)
        { s.ch c with
          active := true
          hstate := false
          position := wrapS 32 ((s.ch c).position.toInt - 1)
          lastedge := s.now
          hfirst := false }
        (s.ch (other c)) (s.enableEvents c ++ [.emit c .clockwise]) r
  | homeWaits (c : Chan) (r : Response) (h : s.senseOf c = false) :
      Effect s (.referencing c) { s.ch c with active := true, hstate := false } (s.ch (other c))
        (s.enableEvents c ++ [.emit c .none]) r
  | setspr (c : Chan) (v : U32) (r : Response) (h : v ≠ 0#32) :
      Effect s (.setspr c v) (derive Params.platform { s.ch c with cfgSpr := v }) (s.ch (other c)) [] r
  | setminrpm (c : Chan) (v : U32) (r : Response) (h : v ≠ 0#32) (h' : v.toNat < (s.ch c).cfgMaxrpm.toNat) :
      Effect s (.setminrpm c v) (derive Params.platform { s.ch c with cfgMinrpm := v }) (s.ch (other c)) [] r
  | setmaxrpm (c : Chan) (v : U32) (r : Response) (h : (s.ch c).cfgMinrpm.toNat < v.toNat) :
      Effect s (.setmaxrpm c v) (derive Params.platform { s.ch c with cfgMaxrpm := v }) (s.ch (other c)) [] r
  | setaccel (c : Chan) (v : U32) (r : Response) (h : v ≠ 0#32) (h' : (s.ch c).direction = .none) :
      Effect s (.setaccel c v) (derive Params.platform { s.ch c with cfgAccel := v }) (s.ch (other c)) [] r
  | wrpos (c : Chan) (v : S32) (r : Response) :
      Effect s (.wrpos c v) { s.ch c with position := v } (s.ch (other c)) [] r

theorem respond_eq_afterBoth (s : State) (c : Chan) (r : Response) :
    ({ s with resp := some r } : State) = s.afterBoth c (s.ch c) (s.ch (other c)) [] r := by
  rw [Block.State.afterBoth, put_self]

/-- Rule R183: what a setter can do. -/
theorem configure_effect {c : Chan} {a : Bool} {k : Channel 32 64} {s t : State} (h : configure c a k s = .next t) :
    (a = true ∧ t = s.afterBoth c (derive Params.platform k) (s.ch (other c)) [] (.ok false 0#32)) ∨
    t = s.afterBoth c (s.ch c) (s.ch (other c)) [] (.ok false 0#32) := by
  rcases configure_cases c a k s with g | g <;> rw [g.2] at h <;> cases h
  · exact .inl ⟨g.1, rfl⟩
  · exact .inr rfl

/-- Every command that answers a next state has one of the effects of `Effect`. -/
theorem exec_effect (i : Instr) (s t : State) (h : exec i s = .next t) :
    ∃ k o es r, t = s.afterBoth i.chan k o es r ∧ Effect s i k o es r := by
  have hans : ∀ (i : Instr) (r : Response), i ≠ .run i.chan → i ≠ .schedstep i.chan →
      ∃ k o es r', ({ s with resp := some r } : State) = s.afterBoth i.chan k o es r' ∧ Effect s i k o es r' :=
    fun i r hr hs => ⟨_, _, _, _, respond_eq_afterBoth s i.chan r, .answer i r hr hs⟩
  cases i <;> simp only [exec] at h <;> simp only [Instr.chan]
  case nop c => cases h; exact hans (.nop c) _ (by simp) (by simp)
  case seedidle c => cases h; rw [respond_setCh]; exact ⟨_, _, _, _, rfl, .seedidle c⟩
  case accel c b => cases h; rw [respond_setCh]; exact ⟨_, _, _, _, rfl, .accel c b _⟩
  case decel c b => cases h; rw [respond_setCh]; exact ⟨_, _, _, _, rfl, .decel c b _⟩
  case setdist c v =>
    rw [execSetdist, signedOperand_platform] at h
    cases h; rw [respond_setCh]; exact ⟨_, _, _, _, rfl, .setdist c v⟩
  case run c =>
    unfold execRun at h
    split at h
    · rename_i hr
      cases h
      have hs : (s.put c { s.ch c with compdue := true } (s.ch (other c)) [.emit c .none]).settleEvents c =
          s.settleEvents c := by simp [Block.State.settleEvents]
      simp only [setCh_eq_put s, driverEmit_eq_put, syncSettle_eq_put, put_put, respond_put, ch_put, ch_put_other,
        List.nil_append, hs]
      exact ⟨_, _, _, _, rfl, .runAtRest c ((atRest_iff _).1 hr).1 ((atRest_iff _).1 hr).2⟩
    · rename_i hr
      rw [atRest_iff] at hr
      cases h
      by_cases hc : (s.ch c).compdue = true
      · rw [runRecompute_eq_put, if_pos hc]
        obtain ⟨k, o, es, e, he⟩ :=
          schedStepCore_effect s c (recompute { s.ch c with active := true }) (s.enableEvents c)
        rw [e, respond_put]
        exact ⟨_, _, _, _, rfl, .runRecomputes c _ _ _ hr hc he⟩
      · rw [runRecompute_eq_put, if_neg hc]
        obtain ⟨k, o, es, e, he⟩ := schedStepCore_effect s c (s.ch c) []
        rw [put_self] at e
        rw [e, respond_put]
        exact ⟨_, _, _, _, rfl, .runCompares c _ _ _ hr (Bool.eq_false_of_not_eq_true hc) he⟩
  case schedstep c =>
    cases h
    obtain ⟨k, o, es, e, he⟩ := schedStepCore_effect s c (s.ch c) []
    rw [put_self] at e
    rw [e, respond_put]
    exact ⟨_, _, _, _, rfl, .schedstep c _ _ _ he⟩
  case runconst c d =>
    have hjog : ∀ e b v, e ≠ .none →
        ∃ k o es r, (jogPoll c e s).respond b v = s.afterBoth c k o es r ∧ Effect s (.runconst c d) k o es r := by
      intro e b v hn
      rcases jogPoll_cases s c e with g | g <;> rw [g.2, respond_put]
      · exact ⟨_, _, _, _, rfl, .jogSteps c d _ _ hn ((cadenceDue_iff _ _).1 g.1)⟩
      · exact ⟨_, _, _, _, rfl, .jogWaits c d _⟩
    unfold execRunconst at h
    split at h <;> cases h
    · exact hans (.runconst c d) _ (by simp) (by simp)
    · simp only [setCh_eq_put, driverEmit_eq_put, put_put, respond_put, ch_put, ch_put_other]
      exact ⟨_, _, _, _, rfl, .jogStops c d⟩
    · exact hjog _ _ _ (by decide)
    · exact hjog _ _ _ (by decide)
  case isrunning c => cases h; exact hans (.isrunning c) _ (by simp) (by simp)
  case attarget c => cases h; exact hans (.attarget c) _ (by simp) (by simp)
  case isactive c => cases h; exact hans (.isactive c) _ (by simp) (by simp)
  case wakeup c => cases h; rw [wakeUp_eq_put, respond_put]; exact ⟨_, _, _, _, rfl, .wakeup c _⟩
  case release c => cases h; rw [release_eq_put, respond_put]; exact ⟨_, _, _, _, rfl, .release c _⟩
  case sync c t =>
    rw [execSync, signedOperand_platform] at h
    cases h; rw [respond_setCh]; exact ⟨_, _, _, _, rfl, .sync c t _⟩
  case endsync c => cases h; rw [respond_setCh]; exact ⟨_, _, _, _, rfl, .endsync c _⟩
  case referencing c =>
    unfold execReferencing at h
    rw [wakeUp_eq_put] at h
    dsimp only at h
    rw [sense_put] at h
    split at h <;> cases h <;> rename_i hsense
    · simp only [homeFound_eq_put, put_put, respond_put, ch_put, ch_put_other]
      exact ⟨_, _, _, _, rfl, .homeFound c _ hsense⟩
    · have hc : (s.put c { s.ch c with active := true } (s.ch (other c)) (s.enableEvents c)).cadenceDue c =
          s.cadenceDue c := by rw [cadenceDue_put]; rfl
      have hsense := Bool.eq_false_of_not_eq_true hsense
      rcases homeSeek_cases (s.put c { s.ch c with active := true } (s.ch (other c)) (s.enableEvents c)) c
        with g | g <;> rw [g.2] <;> rw [hc] at g <;>
        simp only [put_put, respond_put, ch_put, ch_put_other]
      · have hd := g.1
        simp only [ch_put, Bool.or_eq_true, cadenceDue_iff] at hd
        exact ⟨_, _, _, _, rfl, .homeSteps c _ hsense hd⟩
      · exact ⟨_, _, _, _, rfl, .homeWaits c _ hsense⟩
  case setspr c v =>
    rw [execSetspr, unsignedOperand_platform] at h
    rcases configure_effect h with ⟨hv, e⟩ | e
    · exact ⟨_, _, _, _, e, .setspr c v _ (bne_iff_ne.1 hv)⟩
    · exact ⟨_, _, _, _, e, .answer (.setspr c v) _ (by simp) (by simp)⟩
  case setminrpm c v =>
    rw [execSetminrpm, unsignedOperand_platform] at h
    rcases configure_effect h with ⟨hv, e⟩ | e
    · simp only [Bool.and_eq_true, bne_iff_ne, decide_eq_true_eq] at hv
      exact ⟨_, _, _, _, e, .setminrpm c v _ hv.1 hv.2⟩
    · exact ⟨_, _, _, _, e, .answer (.setminrpm c v) _ (by simp) (by simp)⟩
  case setmaxrpm c v =>
    rw [execSetmaxrpm, unsignedOperand_platform] at h
    rcases configure_effect h with ⟨hv, e⟩ | e
    · exact ⟨_, _, _, _, e, .setmaxrpm c v _ (of_decide_eq_true hv)⟩
    · exact ⟨_, _, _, _, e, .answer (.setmaxrpm c v) _ (by simp) (by simp)⟩
  case setaccel c v =>
    rw [execSetaccel, unsignedOperand_platform] at h
    rcases configure_effect h with ⟨hv, e⟩ | e
    · simp only [Bool.and_eq_true, bne_iff_ne, beq_iff_eq] at hv
      exact ⟨_, _, _, _, e, .setaccel c v _ hv.1 hv.2⟩
    · exact ⟨_, _, _, _, e, .answer (.setaccel c v) _ (by simp) (by simp)⟩
  case rdreg c i =>
    unfold execRdreg at h
    split at h <;> cases h <;> exact hans (.rdreg c i) _ (by simp) (by simp)
  case wrpos c v =>
    rw [execWrpos, signedOperand_platform] at h
    cases h; rw [respond_setCh]; exact ⟨_, _, _, _, rfl, .wrpos c v _⟩

end Sys2Proof.Machine
end

