-- ==== Sys2Proof/Laws/PerInstr.lean ====
section
/-!
SUPPORT. What holds of every instruction as syntax, one lemma per constructor: the fields of its word are its opcode,
its channel and its operands, and no reserved bit of the word is set (rules R80, R81 and R83 of 30_encoding.md).
-/

namespace Sys2Proof.Laws

/-- The fields of the word of `i`, and that no reserved bit is set in it. -/
def EncodedFields.Statement (i : Instr) : Prop :=
  fieldOp (encode i) = i.opcode.byte ∧ fieldCh (encode i) = chanByte i.chan ∧ fieldArg (encode i) = i.argByte ∧
  fieldRsv (encode i) = 0#8 ∧ fieldImm (encode i) = i.immWord ∧ reservedBitSet i.opcode (encode i) = false

/-- The five fields are read back whatever the instruction; only the reserved bits depend on it. -/
theorem EncodedFields.of_reserved (i : Instr) (ha : i.argByte &&& i.opcode.argForm.unusedBits = 0#8)
    (hi : i.opcode.usesImm = true ∨ i.immWord = 0#32) : EncodedFields.Statement i := by
  refine ⟨by simp [encode], by simp [encode], by simp [encode], by simp [encode], by simp [encode], ?_⟩
  simp only [reservedBitSet, encode, fieldRsv_commandWord, fieldArg_commandWord, fieldImm_commandWord, ha]
  rcases hi with h | h <;> simp [h]

/-- An instruction without a small argument. -/
theorem EncodedFields.of_noArg (i : Instr) (ha : i.argByte = 0#8)
    (hi : i.opcode.usesImm = true ∨ i.immWord = 0#32) : EncodedFields.Statement i :=
  of_reserved i (by simp [ha]) hi

namespace EncodedFields

theorem nop (c : Chan) : Statement (.nop c) := of_noArg _ rfl (.inr rfl)
theorem seedidle (c : Chan) : Statement (.seedidle c) := of_noArg _ rfl (.inr rfl)
theorem accel (c : Chan) (keep : Bool) : Statement (.accel c keep) :=
  of_reserved _ (by cases keep <;> simp [Instr.argByte, Instr.opcode, Opcode.argForm, ArgForm.unusedBits]) (.inr rfl)
theorem decel (c : Chan) (keep : Bool) : Statement (.decel c keep) :=
  of_reserved _ (by cases keep <;> simp [Instr.argByte, Instr.opcode, Opcode.argForm, ArgForm.unusedBits]) (.inr rfl)
theorem setdist (c : Chan) (v : BitVec 32) : Statement (.setdist c v) := of_noArg _ rfl (.inl rfl)
theorem run (c : Chan) : Statement (.run c) := of_noArg _ rfl (.inr rfl)
theorem schedstep (c : Chan) : Statement (.schedstep c) := of_noArg _ rfl (.inr rfl)
theorem runconst (c : Chan) (d : BitVec 2) : Statement (.runconst c d) :=
  of_reserved _ (by change d.setWidth 8 &&& 0xFC#8 = 0#8; revert d; decide) (.inr rfl)
theorem isrunning (c : Chan) : Statement (.isrunning c) := of_noArg _ rfl (.inr rfl)
theorem attarget (c : Chan) : Statement (.attarget c) := of_noArg _ rfl (.inr rfl)
theorem isactive (c : Chan) : Statement (.isactive c) := of_noArg _ rfl (.inr rfl)
theorem wakeup (c : Chan) : Statement (.wakeup c) := of_noArg _ rfl (.inr rfl)
theorem release (c : Chan) : Statement (.release c) := of_noArg _ rfl (.inr rfl)
theorem sync (c : Chan) (v : BitVec 32) : Statement (.sync c v) := of_noArg _ rfl (.inl rfl)
theorem endsync (c : Chan) : Statement (.endsync c) := of_noArg _ rfl (.inr rfl)
theorem referencing (c : Chan) : Statement (.referencing c) := of_noArg _ rfl (.inr rfl)
theorem setspr (c : Chan) (v : BitVec 32) : Statement (.setspr c v) := of_noArg _ rfl (.inl rfl)
theorem setminrpm (c : Chan) (v : BitVec 32) : Statement (.setminrpm c v) := of_noArg _ rfl (.inl rfl)
theorem setmaxrpm (c : Chan) (v : BitVec 32) : Statement (.setmaxrpm c v) := of_noArg _ rfl (.inl rfl)
theorem setaccel (c : Chan) (v : BitVec 32) : Statement (.setaccel c v) := of_noArg _ rfl (.inl rfl)
theorem rdreg (c : Chan) (i : BitVec 8) : Statement (.rdreg c i) :=
  of_reserved _ (by simp [Instr.argByte, Instr.opcode, Opcode.argForm, ArgForm.unusedBits]) (.inr rfl)
theorem wrpos (c : Chan) (v : BitVec 32) : Statement (.wrpos c v) := of_noArg _ rfl (.inl rfl)

end EncodedFields

end Sys2Proof.Laws
end

