-- ==== Sys2Proof/Tests/Slice0.lean ====
section
/-!
SUPPORT. Tests: the checks of `WellFormed`, the decoding of one written-out word per command, one step per command
on the spec's worked examples, and a witness for the hypotheses of every statement that has some.
-/

namespace Sys2Proof.Tests

open Sys2Proof Sys2Proof.Machine

/-! ## WellFormed, with an ill-formed term for each check -/

theorem test_runconst_reserved_direction_is_ill_formed : (Instr.runconst 0 0b10#2).wellFormed = false := by decide
theorem test_rdreg_index_28_is_ill_formed : (Instr.rdreg 1 28#8).wellFormed = false := by decide
theorem test_rdreg_index_27_is_well_formed : (Instr.rdreg 1 27#8).wellFormed = true := by decide

/-! ## Decoding, from the field layout of rule R80 and the words of the rules' worked examples -/

theorem test_decode_nop : decode 0x0001000000000000#64 = .ok (.nop 1) := by rfl
theorem test_decode_seedidle : decode 0x1000000000000000#64 = .ok (.seedidle 0) := by rfl
theorem test_decode_accel : decode 0x1100010000000000#64 = .ok (.accel 0 true) := by rfl
theorem test_decode_decel : decode 0x1201000000000000#64 = .ok (.decel 1 false) := by rfl
theorem test_decode_setdist : decode 0x2000000000000028#64 = .ok (.setdist 0 40#32) := by rfl
theorem test_decode_run : decode 0x2101000000000000#64 = .ok (.run 1) := by rfl
theorem test_decode_schedstep : decode 0x2200000000000000#64 = .ok (.schedstep 0) := by rfl
theorem test_decode_runconst : decode 0x2301030000000000#64 = .ok (.runconst 1 0b11#2) := by rfl
theorem test_decode_isrunning : decode 0x2400000000000000#64 = .ok (.isrunning 0) := by rfl
theorem test_decode_attarget : decode 0x2501000000000000#64 = .ok (.attarget 1) := by rfl
theorem test_decode_isactive : decode 0x2600000000000000#64 = .ok (.isactive 0) := by rfl
theorem test_decode_wakeup : decode 0x2701000000000000#64 = .ok (.wakeup 1) := by rfl
theorem test_decode_release : decode 0x2800000000000000#64 = .ok (.release 0) := by rfl
theorem test_decode_sync : decode 0x3000000000000001#64 = .ok (.sync 0 1#32) := by rfl
theorem test_decode_endsync : decode 0x3100000000000000#64 = .ok (.endsync 0) := by rfl
theorem test_decode_referencing : decode 0x4000000000000000#64 = .ok (.referencing 0) := by rfl
theorem test_decode_setspr : decode 0x5000000000000190#64 = .ok (.setspr 0 400#32) := by rfl
theorem test_decode_setminrpm : decode 0x5100000000000007#64 = .ok (.setminrpm 0 7#32) := by rfl
theorem test_decode_setmaxrpm : decode 0x5200000000000258#64 = .ok (.setmaxrpm 0 600#32) := by rfl
theorem test_decode_setaccel : decode 0x5300000000000064#64 = .ok (.setaccel 0 100#32) := by rfl
theorem test_decode_rdreg : decode 0x60011B0000000000#64 = .ok (.rdreg 1 27#8) := by rfl
theorem test_decode_wrpos : decode 0x61000000FFFFFFFF#64 = .ok (.wrpos 0 0xFFFFFFFF#32) := by rfl
theorem test_decode_of_the_opcode_table : decodeTableWord 64 0x2301030000000000 = some (.runconst 1 0b11#2) := by rfl
theorem test_decode_refuses_the_held_back_opcode : decodeTableWord 64 0x2900000000000000 = none := by rfl

/-! ## The notation of rule R88, from its examples and the listings of rules R127 and R166 -/

theorem test_text_setdist : (Instr.setdist 0 (-40#32)).text = some "SETDIST 0, -40" := by decide
theorem test_text_runconst : (Instr.runconst 1 0b11#2).text = some "RUNCONST 1, CW" := by decide
theorem test_text_rdpos : (Instr.rdpos 0).text = some "RDREG 0, POSITION" := by decide
theorem test_text_accel : (Instr.accel 0 true).text = some "ACCEL 0, 1" := by decide
theorem test_text_reserved_direction : (Instr.runconst 0 0b10#2).text = none := by decide
theorem test_listing_schedstep :
    (Instr.schedstep 0).listing 109976#32 false = some "SCHEDSTEP 0 @ now=109976" := by decide
theorem test_listing_referencing :
    (Instr.referencing 0).listing 500#32 false = some "REFERENCING 0 @ now=500 sense=0" := by decide

/-! ## One step per command -/

/-- The reset channel. -/
def rest : Channel 32 64 := Channel.reset Params.platform

/-- A state with the registers `a` and `b`, at the clock reading `now`. -/
def at_ (now : U32) (a b : Channel 32 64) : State := { State.reset with chs := #v[a, b], now := now }

/-- What is asked of the state after a command, if there is one. -/
def ask {α : Type} (o : Host.Outcome State Fault Refusal) (f : State → α) : Option α :=
  match o with
  | .next t => some (f t)
  | .fault _ => none
  | .refused _ => none

/-- A channel in the middle of a move, from the worked example of rule R127. -/
def moving : Channel 32 64 :=
  { rest with distance := 2#32, position := 1#32, direction := .counterClockwise, active := true,
              curcount := 9976#32, nextcount := 8442#32, rampstep := 3#32, rampfloor := 2#32, compdue := false,
              lastedge := 100000#32 }

/-- The link of the worked example of rule R151, on a channel that moves. -/
def linked : Channel 32 64 :=
  { moving with linkAttached := true, linkMajor := 10#32, linkMinor := 4#32, linkErr := 5#64,
                linkSign := .clockwise, linkTarget := 1#32 }

/-- Rule R184. -/
theorem test_nop : ask (exec (.nop 0) State.reset) (·.resp) = some (some (.ok false 0#32)) := by decide

/-- Rule R110, worked example. -/
theorem test_seedidle : ask (exec (.seedidle 0) State.reset) (·.ch 0) = some (State.reset.ch 0) := by decide

/-- Rule R111, worked example: the delay is clamped to the band. -/
theorem test_accel_clamps : ask (exec (.accel 0 false) State.reset)
    (fun t => ((t.ch 0).rampstep, (t.ch 0).nextcount, (t.ch 0).compdue, t.resp)) =
    some (1#32, 10000#32, false, some (.ok false 10000#32)) := by decide

/-- Rule R111, cruise example. -/
theorem test_accel_cruises :
    ask (exec (.accel 0 false) (at_ 0#32 { moving with curcount := 1005#32, rampstep := 50#32 } rest))
      (fun t => ((t.ch 0).rampstep, (t.ch 0).nextcount)) = some (50#32, 1005#32) := by decide

/-- Rule R112, worked example. -/
theorem test_decel :
    ask (exec (.decel 0 false) (at_ 0#32 { moving with curcount := 3342#32, rampstep := 22#32 } rest))
      (fun t => ((t.ch 0).rampstep, (t.ch 0).nextcount, t.resp)) =
        some (21#32, 3418#32, some (.ok false 3418#32)) := by decide

/-- Rule R112, stop example. -/
theorem test_decel_stops :
    ask (exec (.decel 0 false) (at_ 0#32 { moving with curcount := 8445#32 } rest))
      (fun t => ((t.ch 0).direction, (t.ch 0).rampstep, (t.ch 0).rampfloor, t.resp)) =
    some (.none, 0#32, 0#32, some (.ok true 21376#32)) := by decide

/-- Rule R124, worked example. -/
theorem test_setdist : ask (exec (.setdist 0 40#32) State.reset) (·.ch 0) = some { rest with distance := 40#32 } := by
  decide

/-- Rule R125, worked example: a move is seeded and the first step is due. -/
theorem test_run_starts_a_move : ask (exec (.run 0) (at_ 100000#32 { rest with distance := 3#32 } rest))
    (fun t => (t.ch 0, t.events)) =
    some ({ rest with distance := 2#32, position := 1#32, direction := .counterClockwise, active := true,
                      curcount := 9976#32, nextcount := 9976#32, rampstep := 2#32, rampfloor := 2#32,
                      compdue := true, lastedge := 100000#32 },
      [.enable 0, .emit 0 .counterClockwise]) := by decide

/-- Rule R125, corner case (a): idle polls. -/
theorem test_run_at_rest : ask (exec (.run 0) State.reset) (fun t => (t.ch 0, t.events, t.resp)) =
    some (rest, [.emit 0 .none], some (.ok true 0#32)) := by decide

/-- Rule R127, worked example, one tick before the delay has elapsed. -/
theorem test_schedstep_not_due : ask (exec (.schedstep 0) (at_ 109975#32 moving rest))
    (fun t => (t.ch 0, t.events)) = some (moving, [.emit 0 .none]) := by decide

/-- Rules R127 and R153, worked examples: due, and the accumulator becomes negative on the second step. -/
theorem test_schedstep_steps_the_secondary :
    ask (exec (.schedstep 0) (at_ 109976#32 { linked with linkErr := 1#64 } { rest with position := 5#32 }))
      (fun t => ([(t.ch 0).distance, (t.ch 0).position, (t.ch 0).lastedge, (t.ch 0).curcount,
        (t.ch 1).position], (t.ch 0).linkErr,
        (t.ch 1).active, t.events)) =
    some ([1#32, 2#32, 109976#32, 8442#32, 4#32], 7#64, true,
      [.emit 0 .counterClockwise, .enable 1, .emit 1 .clockwise]) := by decide

/-- Rule R128, worked example: the comparison is strict. -/
theorem test_runconst_waits : ask (exec (.runconst 0 0b11#2) (at_ 10000#32 rest rest))
    (fun t => (t.events, t.resp)) = some ([.enable 0, .emit 0 .none], some (.ok false 0#32)) := by decide

/-- Rule R128, worked example: one step clockwise. -/
theorem test_runconst_steps :
    ask (exec (.runconst 0 0b11#2) (at_ 10001#32 { rest with active := true } rest))
      (fun t => ((t.ch 0).lastedge, (t.ch 0).position, t.events, t.resp)) =
    some (10001#32, 0#32, [.emit 0 .clockwise], some (.ok false 0xFFFFFFFF#32)) := by decide

/-- Rule R129, worked example. -/
theorem test_isrunning : ask (exec (.isrunning 0) State.reset) (·.resp) = some (some (.ok false 0#32)) := by decide

/-- Rule R130, worked example. -/
theorem test_attarget : ask (exec (.attarget 1) State.reset) (·.resp) = some (some (.ok true 0#32)) := by decide

/-- Rule R131, worked example. -/
theorem test_isactive : ask (exec (.isactive 0) State.reset) (·.resp) = some (some (.ok false 0#32)) := by decide

/-- Rule R132, worked example. -/
theorem test_wakeup : ask (exec (.wakeup 1) State.reset) (fun t => ((t.ch 1).active, t.events)) =
    some (true, [.enable 1]) := by decide

/-- Rule R133, worked example. -/
theorem test_release : ask (exec (.release 0) (at_ 0#32 moving rest)) (fun t => ((t.ch 0).active, t.events)) =
    some (false, [.disable 0]) := by decide

/-- Rule R151, worked example. -/
theorem test_sync :
    ask (exec (.sync 0 1#32) (at_ 0#32 { rest with distance := -10#32 } { rest with position := 5#32 })) (·.ch 0) =
    some { rest with distance := -10#32, linkAttached := true, linkMajor := 10#32, linkMinor := 4#32,
                     linkErr := 5#64, linkSign := .clockwise, linkTarget := 1#32 } := by decide

/-- Rule R152, worked example. -/
theorem test_endsync : ask (exec (.endsync 0) (at_ 0#32 linked rest)) (·.ch 0) =
    some { linked with linkAttached := false } := by decide

/-- Rule R166, worked example, first call of a seek. -/
theorem test_referencing_steps : ask (exec (.referencing 0) (at_ 500#32 rest rest))
    (fun t => ((t.ch 0).position, (t.ch 0).lastedge, (t.ch 0).hfirst, t.events, t.resp)) =
    some (-1#32, 500#32, false, [.enable 0, .emit 0 .clockwise], some (.ok false 0#32)) := by decide

/-- Rule R166, worked example, home found. -/
theorem test_referencing_finds_home :
    ask (exec (.referencing 0)
      { at_ 10600#32 { rest with active := true, position := -2#32, hfirst := false } rest with sense := 0b01#2 })
      (fun t => ((t.ch 0).position, (t.ch 0).hfirst, (t.ch 0).hstate, t.events, t.resp)) =
    some (0#32, true, true, [.emit 0 .none], some (.ok true 0#32)) := by decide

/-- Rule R179, worked example. -/
theorem test_setspr : ask (exec (.setspr 0 400#32) State.reset)
    (fun t => ((t.ch 0).cfgSpr, (t.ch 0).zerocount, (t.ch 0).mincount, (t.ch 0).maxcount, (t.ch 0).curcount)) =
    some (400#32, 15115#32, 500#32, 5000#32, 21376#32) := by decide

/-- Rule R179, worked example: zero is ignored. -/
theorem test_setspr_zero : ask (exec (.setspr 0 0#32) State.reset) (·.ch 0) = some rest := by decide

/-- Rule R180, worked example. -/
theorem test_setminrpm : ask (exec (.setminrpm 0 7#32) State.reset) (fun t => ((t.ch 0).cfgMinrpm, (t.ch 0).maxcount)) =
    some (7#32, 42857#32) := by decide

/-- Rule R180, worked example: the present maximum is ignored. -/
theorem test_setminrpm_of_the_maximum : ask (exec (.setminrpm 0 300#32) State.reset) (·.ch 0) = some rest := by decide

/-- Rule R181, worked example. -/
theorem test_setmaxrpm :
    ask (exec (.setmaxrpm 0 600#32) State.reset) (fun t => ((t.ch 0).cfgMaxrpm, (t.ch 0).mincount)) =
    some (600#32, 500#32) := by decide

/-- Rule R181, worked example: the present minimum is ignored. -/
theorem test_setmaxrpm_of_the_minimum : ask (exec (.setmaxrpm 0 30#32) State.reset) (·.ch 0) = some rest := by decide

/-- Rule R182, worked example. -/
theorem test_setaccel : ask (exec (.setaccel 0 100#32) State.reset) (fun t => ((t.ch 0).cfgAccel, (t.ch 0).zerocount)) =
    some (100#32, 52362#32) := by decide

/-- Rule R182, worked example: ignored while running. -/
theorem test_setaccel_running :
    ask (exec (.setaccel 0 100#32) (at_ 0#32 moving rest)) (·.ch 0) = some moving := by decide

/-- Rule R187, worked example. -/
theorem test_rdreg_status :
    ask (exec (.rdreg 1 27#8) State.reset) (·.resp) = some (some (.ok false 0x1A#32)) := by decide

/-- Rule R187, worked example. -/
theorem test_rdreg_maxcount :
    ask (exec (.rdreg 0 19#8) State.reset) (·.resp) = some (some (.ok false 0x2710#32)) := by
  decide

/-- Rule R188, worked example. -/
theorem test_wrpos :
    ask (exec (.wrpos 1 5#32) State.reset) (·.ch 1) = some { rest with position := 5#32 } := by decide

/-- Rule R204, an example: the response to a stray `ARG` bit of RUNCONST. -/
theorem test_step_illegal : ask (step (State.reset.withFetchWord 64 0x2300060000000000)) (·.resp) =
    some (some ⟨true, false, 3#32⟩) := by decide

/-- The command placed by `withFetchWord` is the one the next step runs. -/
theorem test_step_runs_the_placed_word :
    ask (step (State.reset.withFetchWord 64 0x6101000000000005)) (fun t => (t.ch 1).position) =
    some 5#32 := by decide

/-- Rule R82: the response word of an illegal command of cause 5. -/
theorem test_response_word : Response.word ⟨true, false, 5#32⟩ = 0x8000000000000005#64 := by decide

/-! ## Witnesses: a concrete state and operands that meet the hypotheses of each statement, each clause at a
boundary of its range. The name after `witness_` is the statement's. -/

/-- The state in which the host presents `w` next, at the clock reading `now`. -/
def presents (now : U32) (w : BitVec 64) (s : State) : State :=
  { s with inputs := [.command ⟨w, now, 0b10#2⟩] }

theorem witness_DecodeOfEncodeIsTheInstruction :
    (Instr.rdreg 1 27#8).wellFormed = true ∧ (Instr.runconst 0 0b11#2).wellFormed = true ∧
    (Instr.setdist 1 0x80000000#32).wellFormed = true := by decide

theorem witness_AcceptedWordIsTheWordOfItsInstruction :
    decode 0x60011B0000000000#64 = .ok (.rdreg 1 27#8) := by rfl

theorem witness_LegalWordsAreTheRowsOfTheOpcodeMap :
    decode 0x2300020000000000#64 = .error .direction ∧
    (presents 7#32 0x2300020000000000#64 State.reset).inputs =
      .command ⟨0x2300020000000000#64, 7#32, 0b10#2⟩ :: [] := ⟨by rfl, by rfl⟩

theorem witness_StepRunsTheDecodedCommand :
    decode 0x2101000000000000#64 = .ok (.run 1) ∧
    (presents 7#32 0x2101000000000000#64 State.reset).inputs =
      .command ⟨0x2101000000000000#64, 7#32, 0b10#2⟩ :: [] := ⟨by rfl, by rfl⟩

theorem witness_IllegalCommandOnlyAnswersItsCause :
    decode 0x60001C0000000000#64 = .error .regindex ∧
    (presents 7#32 0x60001C0000000000#64 State.reset).inputs =
      .command ⟨0x60001C0000000000#64, 7#32, 0b10#2⟩ :: [] := ⟨by rfl, by rfl⟩

theorem witness_NothingChangesBetweenCommands : State.reset.inputs = [] := by rfl

theorem witness_ResetGivesEveryRegisterItsResetValue :
    ({ at_ 7#32 moving linked with inputs := [.reset] } : State).inputs = .reset :: [] := by rfl

theorem witness_EveryLegalCommandCompletes : (Instr.runconst 1 0b01#2).wellFormed = true := by decide

/-- At both ends of the band. -/
theorem witness_AccelerationNeverLengthensTheDelay :
    let low := (at_ 0#32 { moving with curcount := 1000#32 } rest).ch 0
    let high := (at_ 0#32 { moving with curcount := 10000#32 } rest).ch 0
    (low.mincount.toNat ≤ low.curcount.toNat ∧ low.curcount.toNat ≤ low.maxcount.toNat) ∧
    high.mincount.toNat ≤ high.curcount.toNat ∧ high.curcount.toNat ≤ high.maxcount.toNat := by decide

/-- Without and with a link. -/
theorem witness_RunAtRestOnlySettles :
    ((State.reset.ch 1).distance = 0#32 ∧ (State.reset.ch 1).direction = .none) ∧
    ((at_ 0#32 { rest with linkAttached := true } rest).ch 0).distance = 0#32 ∧
    ((at_ 0#32 { rest with linkAttached := true } rest).ch 0).direction = .none := by decide

/-- For one step upward and for the most negative distance. -/
theorem witness_RunStartsAMoveThenCompares :
    let s := at_ 0#32 { rest with distance := 1#32 } { rest with distance := 0x80000000#32 }
    ((s.ch 0).compdue = true ∧ (s.ch 0).direction = .none ∧ (s.ch 0).distance ≠ 0#32) ∧
    (s.ch 1).compdue = true ∧ (s.ch 1).direction = .none ∧ (s.ch 1).distance ≠ 0#32 := by decide

/-- Both branches, with the distance left one above the physical ramp index and equal to it. -/
theorem witness_RunOnAMovingMotorIsWakeRampCompare :
    let up := { moving with compdue := true }
    let down := { moving with compdue := true, distance := 1#32 }
    (up.compdue = true ∧ up.direction ≠ .none ∧ up.keepsAccelerating = true) ∧
    down.compdue = true ∧ down.direction ≠ .none ∧ down.keepsAccelerating = false := by decide

/-- While moving, and idle with a step left. -/
theorem witness_RunWithNothingOwedOnlyCompares :
    (moving.compdue = false ∧ ¬ (moving.distance = 0#32 ∧ moving.direction = .none)) ∧
    let left := { rest with compdue := false, distance := 1#32 }
    left.compdue = false ∧ ¬ (left.distance = 0#32 ∧ left.direction = .none) := by decide

/-- One tick before the delay has elapsed, also across the wrap of the clock. -/
theorem witness_SchedStepBeforeTheDelaySettles :
    let s := at_ 109975#32 moving rest
    let w := at_ 0x2E7#32 { moving with lastedge := 0xFFFFFF00#32, curcount := 1000#32 } rest
    (s.now - (s.ch 0).lastedge).toNat < (s.ch 0).curcount.toNat ∧
    (w.now - (w.ch 0).lastedge).toNat < (w.ch 0).curcount.toNat := by decide

theorem witness_SchedStepWhileIdleTakesTheTimestamp :
    let s := at_ 21376#32 rest rest
    (s.ch 0).curcount.toNat ≤ (s.now - (s.ch 0).lastedge).toNat ∧ (s.ch 0).direction = .none := by decide

/-- In both directions. -/
theorem witness_SchedStepMovesOneStep :
    ∀ d ∈ [Dir.clockwise, Dir.counterClockwise],
      let s := at_ 109976#32 { moving with direction := d } rest
      (s.ch 0).curcount.toNat ≤ (s.now - (s.ch 0).lastedge).toNat ∧ (s.ch 0).direction ≠ .none ∧
        (s.ch 0).linkAttached = false := by decide

/-- The no-op link, and the accumulator less `LINK_MINOR` at -1 and at 0. -/
theorem witness_SchedStepDrivesTheLink :
    ∀ k ∈ [{ linked with linkMajor := 0#32 }, { linked with linkErr := 3#64 }, { linked with linkErr := 4#64 }],
      let s := at_ 109976#32 k rest
      (s.ch 0).curcount.toNat ≤ (s.now - (s.ch 0).lastedge).toNat ∧ (s.ch 0).direction ≠ .none ∧
        (s.ch 0).linkAttached = true := by decide

theorem witness_RunConstJogsAtTheFixedCadence :
    (0b11#2 : BitVec 2) ≠ 0b10#2 ∧ (0b00#2 : BitVec 2) ≠ 0b10#2 := by decide

/-- The smallest and the largest arguments. -/
theorem witness_CountOfIsTheClampedQuotient :
    (1 ≤ (1#32 : U32).toNat ∧ (1#32 : U32).toNat ≤ (0xFFFFFFFF#32 : U32).toNat) ∧
    1 ≤ (0xFFFFFFFF#32 : U32).toNat ∧ (0xFFFFFFFF#32 : U32).toNat ≤ (0xFFFFFFFF#32 : U32).toNat := by decide

theorem witness_ZeroCountOfIsTheClampedFloorRoot :
    1 ≤ (1#32 : U32).toNat ∧ 1 ≤ (0xFFFFFFFF#32 : U32).toNat := by decide

/-- The last readable index and the first reserved one. -/
theorem witness_RdregReturnsTheIndexedRegister :
    (27#8 : BitVec 8).toNat ≤ 27 ∧ 27 < (28#8 : BitVec 8).toNat ∧ rest.regWords[27]? = some 0x1A#32 := by decide

theorem witness_EveryStepKeepsTheInvariant :
    State.reset.Inv ∧ ask (step State.reset) (fun _ => true) = some true := by decide

theorem witness_MinCountIsAtMostMaxCount : rest.ConfigLegal ∧ rest.CountsDerived Params.platform := by decide

/-- A legal state that moves, and an accelerating poll of it. -/
theorem witness_RunningDelaysStayInTheBand :
    let s := at_ 109976#32 { moving with compdue := true } rest
    s.Inv ∧ (s.ch 0).BandWhileRunning ∧ (s.ch 1).BandWhileRunning ∧ (s.ch 0).direction ≠ .none ∧
      ask (exec (.run 0) s) (fun _ => true) = some true := by decide

theorem witness_OnlyReleaseLowersTheDriverEnable :
    let s := at_ 0#32 moving rest
    (s.ch 0).active = true ∧ ask (exec (.release 0) s) (fun t => (t.ch 0).active) = some false := by decide

theorem witness_DriverEventsMirrorActive :
    ask (exec (.wakeup 1) State.reset) (·.events) = some [.enable 1] := by decide

/-- Each of the four writers changes the register. -/
theorem witness_PositionHasFourWriters :
    let s := at_ 109976#32 { linked with linkErr := 3#64 } rest
    ask (exec (.run 0) s) (fun t => decide ((t.ch 0).position ≠ (s.ch 0).position)) = some true ∧
    ask (exec (.schedstep 0) s) (fun t => decide ((t.ch 1).position ≠ (s.ch 1).position)) = some true ∧
    ask (exec (.referencing 1) s) (fun t => decide ((t.ch 1).position ≠ (s.ch 1).position)) = some true ∧
    ask (exec (.wrpos 1 5#32) s) (fun t => decide ((t.ch 1).position ≠ (s.ch 1).position)) = some true := by
  decide

theorem witness_ConfigurationIsWrittenOnlyByItsSetters :
    (State.reset.ch 0).CountsDerived Params.platform ∧
    ask (exec (.setspr 0 400#32) State.reset) (fun t => (t.ch 0).cfgSpr) = some 400#32 := by decide

/-- A command that reads no sense input, and a homing call with the other channel's input changed. -/
theorem witness_SenseIsReadOnlyByReferencing :
    ((∀ c : Chan, Instr.run 0 = .referencing c → (0b11#2).getLsbD c = State.reset.sense.getLsbD c) ∧
      ask (exec (.run 0) State.reset) (fun _ => true) = some true) ∧
    (∀ c : Chan, Instr.referencing 1 = .referencing c → (0b01#2).getLsbD c = State.reset.sense.getLsbD c) ∧
    ask (exec (.referencing 1) State.reset) (fun _ => true) = some true := by decide

/-- A poll without a link, and another command of a linked channel. -/
theorem witness_UnlinkedCommandsKeepToTheirChannel :
    ((at_ 109976#32 moving linked).ch 0).linkAttached = false ∧
    ask (exec (.run 0) (at_ 109976#32 moving linked)) (fun _ => true) = some true ∧
    ((at_ 109976#32 moving linked).ch 1).linkAttached = true ∧
    ask (exec (.referencing 1) (at_ 109976#32 moving linked)) (fun _ => true) = some true := by decide

theorem witness_LinkedPollServesBothPortsOnce :
    ((at_ 109976#32 linked rest).ch 0).linkAttached = true ∧
    ask (exec (.run 0) (at_ 109976#32 linked rest)) (fun _ => true) = some true := by decide

/-- A legal state in which a poll emits a step exactly `CURCOUNT` ticks after the last one. -/
theorem witness_PollNeverStepsFasterThanMaximumVelocity :
    let s := at_ 109976#32 moving rest
    s.Inv ∧ (s.ch 0).BandWhileRunning ∧ (s.ch 0).direction ≠ .none ∧
      ask (exec (.schedstep 0) s) (fun t => (s.events, t.events)) =
        some ([], [.emit 0 .counterClockwise]) := by decide

/-- A homing step and a jogging step on the first tick at which the cadence is due. -/
theorem witness_HomingAndJoggingKeepTheSlowestCadence :
    let s := at_ 10001#32 { rest with hfirst := false, active := true } rest
    (s.ch 0).hfirst = false ∧
    ask (exec (.referencing 0) s) (fun t => (s.events, t.events)) = some ([], [.emit 0 .clockwise]) ∧
    ask (exec (.runconst 0 0b01#2) s) (fun t => (s.events, t.events)) =
      some ([], [.emit 0 .counterClockwise]) := by decide

theorem witness_PollsConserveDistancePlusPosition :
    ask (exec (.run 0) (at_ 109976#32 moving rest)) (fun t => (t.ch 0).position) = some 2#32 ∧
    ask (exec (.schedstep 0) (at_ 109976#32 moving rest)) (fun t => (t.ch 0).position) = some 2#32 := by decide

/-- A presentation of the word `w` at the clock reading `now`. -/
def poll (w : BitVec 64) (now : U32) : PortInput 2 32 := .command ⟨w, now, 0b00#2⟩

theorem test_decode_run_of_channel_0 : decode 0x2100000000000000#64 = .ok (.run 0) := by rfl

/-- Everything presented in the list is a poll of channel 0. -/
theorem presentsOnly_polls (s : State) (cmds : List Instr) (h : Instr.run 0 ∈ cmds) (times : List U32)
    (hs : s.inputs = times.map (poll 0x2100000000000000#64)) : s.PresentsOnly cmds := by
  intro x hx
  rw [hs] at hx
  obtain ⟨n, _, rfl⟩ := List.mem_map.1 hx
  exact ⟨_, rfl, .run 0, h, test_decode_run_of_channel_0⟩

/-- A move of one step: the first poll takes it, the second stops the motor, the third finds it at rest. -/
theorem witness_RunReturningTrueHasMovedByTheDistance :
    let s := { at_ 0#32 { rest with distance := 1#32 } rest with
      inputs := [100000#32, 120000#32, 140000#32].map (poll 0x2100000000000000#64) }
    s.PresentsOnly [.run 0] ∧ (s.runTrace 3).2.resp = some (.ok true 0#32) :=
  ⟨presentsOnly_polls _ _ (by decide) _ rfl, by decide⟩

/-- A link of 1 to 1 and one primary step, after which the secondary has taken its one step. -/
theorem witness_LinkKeepsTheRasterizationRatio :
    let k := { linked with linkMajor := 1#32, linkMinor := 1#32, linkErr := 0#64 }
    let s := { at_ 0#32 k rest with inputs := [109976#32].map (poll 0x2100000000000000#64) }
    s.PresentsOnly [.run 0, .schedstep 0] ∧
    (k.linkAttached = true ∧ 0 < k.linkMajor.toNat ∧ k.linkMinor.toNat ≤ k.linkMajor.toNat ∧
      (k.linkSign = .none ↔ k.linkMinor.toNat = 0) ∧ k.linkErr.toInt = (k.linkMajor.toNat / 2 : Nat)) ∧
    (s.runTrace 1).1.countP (DriverEvent.isStepOn 0) = k.linkMajor.toNat :=
  ⟨presentsOnly_polls _ _ (by decide) _ rfl, by decide, by decide⟩

/-- A platform with other parameters: three channels, 16-bit registers, half the clock. -/
def smallParams : Params 3 16 32 := .reference 500000 676 1000 200#16 30#16 300#16 600#16

theorem witness_EveryPlatformDerivesWithItsOwnParameters :
    (∀ d, (State.reset.ch d).CountsDerived Params.platform) ∧
    ∀ d, ((Block.State.reset smallParams.config.params).ch d).CountsDerived smallParams.config.params :=
  ⟨by decide, show ∀ d, ((Block.State.reset smallParams).ch d).CountsDerived smallParams by decide⟩

/-- Rules R5, R176 and R177 on that platform: half the ticks for every delay. -/
theorem test_reset_of_another_platform :
    (fun k : Channel 16 32 => (k.mincount, k.maxcount, k.zerocount)) ((Block.State.reset smallParams).ch 2) =
    (500#16, 5000#16, 10688#16) := by decide

end Sys2Proof.Tests
end

section
/-!
Proofs of the statements about 00_scope.md: directions (rule R9), the time between commands (rule R6) and the
parameters of a platform (rules R5 and R10).
-/

namespace Sys2Proof

/-! ## Directions and their codes (rule R9) -/

@[simp] theorem Dir.ofUnit_unit (d : Dir) : Dir.ofUnit d.unit = d := by
  cases d with
  | clockwise | counterClockwise | none => rfl

theorem Dir.code_eq_ofInt_unit (d : Dir) : d.code = BitVec.ofInt 2 d.unit := by
  cases d with
  | clockwise | counterClockwise | none => rfl

@[simp] theorem Dir.ofCode_code (d : Dir) : Dir.ofCode d.code = some d := by
  cases d with
  | clockwise | counterClockwise | none => rfl

/-- Settles O7: the table of unit steps and codes is read off the definitions, the three round trips are the lemmas
above. -/
theorem directionCodesAreTheUnitSteps : Obligations.DirectionCodesAreTheUnitSteps :=
  ⟨rfl, rfl, rfl, fun d => ⟨d.ofUnit_unit, d.code_eq_ofInt_unit, d.ofCode_code⟩, rfl, rfl, rfl, rfl, rfl⟩

namespace Machine

/-! ## Between commands (rule R6) -/

theorem step_of_inputs_nil {s : State} (h : s.inputs = []) : step s = .next s.idle := by
  unfold step
  rw [h]

/-- Settles O10: the idle step, whose state differs from `s` in the two output ports only. -/
theorem nothingChangesBetweenCommands : Obligations.NothingChangesBetweenCommands :=
  fun _ h => step_of_inputs_nil h

/-! ## The parameters of this platform (rules R5 and R10) -/

theorem platform_countOf (rpm spr : U32) : Params.platform.countOf rpm spr = referenceCountOf 1000000 rpm spr := rfl

theorem platform_zeroCountOf (spr accel : U32) :
    Params.platform.zeroCountOf spr accel = referenceZeroCountOf 1000000 676 1000 spr accel := rfl

/-- Rule R10, `other(c) = 1 - c`. -/
theorem val_other (c : Fin 2) : (other c).val = 1 - c.val := by
  rw [other_eq_rev, Fin.val_rev]
  omega

/-- Settles O58: every parameter is a field of `Params.platform`; the other channel is the reversal of `Fin 2`. -/
theorem platformHoldsTheSpecsParameters : Obligations.PlatformHoldsTheSpecsParameters :=
  ⟨rfl, rfl, rfl, rfl, rfl, rfl, rfl, rfl, rfl, rfl, rfl, platform_countOf, platform_zeroCountOf, val_other⟩

/-! ## Derived counts on every platform (rules R5, R53 and R178) -/

section Derived

variable {nch w we : Nat} {par : Params nch w we}

theorem countsDerived_reset (par : Params nch w we) : (Channel.reset par).CountsDerived par := ⟨rfl, rfl, rfl⟩

/-- Rule R178: whatever the counts were, `Derive` makes them those of the configuration. -/
theorem countsDerived_derive (par : Params nch w we) (k : Channel w we) : (derive par k).CountsDerived par :=
  ⟨rfl, rfl, rfl⟩

theorem countsDerived_setCh {s : Block.State par} (hs : ∀ d, (s.ch d).CountsDerived par) (c : Fin nch)
    {k : Channel w we} (hk : k.CountsDerived par) (d : Fin nch) : ((s.setCh c k).ch d).CountsDerived par := by
  by_cases h : c = d
  · subst h
    rwa [ch_setCh]
  · rw [ch_setCh_ne s h]
    exact hs d

/-- Rule R183: a setter that accepts derives the counts of its channel, one that rejects writes no register; so every
setter keeps the counts derived. -/
theorem configure_keeps_countsDerived (c : Fin nch) (accepts : Bool) (k : Channel w we) {s : Block.State par}
    (hs : ∀ d, (s.ch d).CountsDerived par) :
    ∃ t, configure c accepts k s = .next t ∧ ∀ d, (t.ch d).CountsDerived par := by
  cases accepts with
  | true => exact ⟨_, rfl, countsDerived_setCh hs c (countsDerived_derive par k)⟩
  | false => exact ⟨_, rfl, hs⟩

end Derived

/-- Settles O59: a channel after reset is `Channel.reset` of the record, and each of the four setters is
`configure` with its own test and registers. -/
theorem everyPlatformDerivesWithItsOwnParameters : Obligations.EveryPlatformDerivesWithItsOwnParameters := by
  intro cfg
  constructor
  · intro c
    rw [ch_reset]
    exact ⟨countsDerived_reset _, rfl, rfl, rfl, rfl⟩
  · intro c v s hs
    simp only [List.forall_mem_cons]
    have setter (accepts k) := configure_keeps_countsDerived c accepts k hs
    exact ⟨setter _ _, setter _ _, setter _ _, setter _ _, List.forall_mem_nil _⟩

end Machine

end Sys2Proof
end

section
/-!
Which registers a command can write and what a step can be, read off `exec_effect`: the layer under the proofs about
10_state.md that follow.
-/

namespace Sys2Proof.Machine

variable {s t : State} {i : Instr} {c : Chan} {k k' o : Channel 32 64} {pre es : List (DriverEvent 2)} {r : Response}

/-! ## What a command writes -/

/-- Rule R125: the registers a recomputation can write. -/
theorem recompute_frame (k : Channel 32 64) :
    ∃ dir cur next step floor due, recompute k =
      { k with direction := dir, curcount := cur, nextcount := next, rampstep := step, rampfloor := floor,
               compdue := due } := by
  rcases recompute_cases k with ⟨_, h⟩ | ⟨_, _, h⟩ | ⟨_, _, h⟩
  · exact ⟨_, _, _, _, _, _, h⟩
  · obtain ⟨step, next, h'⟩ := accelCore_frame false k
    exact ⟨_, _, _, _, _, _, h.trans h'⟩
  · obtain ⟨dir, step, floor, next, h'⟩ := decelCore_frame false k
    exact ⟨_, _, _, _, _, _, h.trans h'⟩

/-- Rules R126 and R153: the registers of its own channel a poll can write after the recomputation. -/
theorem PollEffect.frame (h : PollEffect s c k pre k' o es) :
    ∃ x p cur due edge err, k' =
      { k with distance := x, position := p, curcount := cur, compdue := due, lastedge := edge, linkErr := err } := by
  cases h with
  | _ => exact ⟨_, _, _, _, _, _, rfl⟩

/-- Rules R20 and R153: a poll reaches the other channel only through an attached link, and writes its `ACTIVE` and
`POSITION` only. -/
theorem PollEffect.other_cases (h : PollEffect s c k pre k' o es) :
    o = s.ch (other c) ∨ k.linkAttached = true ∧ ∃ p, o = { s.ch (other c) with active := true, position := p } := by
  cases h with
  | secondarySteps _ _ ha => exact .inr ⟨ha, _, rfl⟩
  | _ => exact .inl rfl

@[simp] theorem recompute_linkAttached (k : Channel 32 64) : (recompute k).linkAttached = k.linkAttached := by
  obtain ⟨_, _, _, _, _, _, h⟩ := recompute_frame k
  rw [h]

/-- Rules R20 and R155: only a poll of a primary with an attached link writes registers of the other channel. -/
theorem Effect.other_cases (h : Effect s i k o es r) :
    o = s.ch (other i.chan) ∨
    (i = .run i.chan ∨ i = .schedstep i.chan) ∧ (s.ch i.chan).linkAttached = true ∧
      ∃ p, o = { s.ch (other i.chan) with active := true, position := p } := by
  cases h with
  | runRecomputes c _ _ _ _ _ hp =>
    have hp := hp.other_cases
    rw [recompute_linkAttached] at hp
    exact hp.imp_right fun ⟨ha, ho⟩ => ⟨.inl rfl, ha, ho⟩
  | runCompares c _ _ _ _ _ hp => exact hp.other_cases.imp_right fun ⟨ha, ho⟩ => ⟨.inl rfl, ha, ho⟩
  | schedstep c _ _ _ hp => exact hp.other_cases.imp_right fun ⟨ha, ho⟩ => ⟨.inr rfl, ha, ho⟩
  | _ => exact .inl rfl

/-- A claim about both channels after a command is a claim about the two channels of each effect. -/
theorem forall_ch_of_effect {P : Channel 32 64 → Prop} (hx : exec i s = .next t)
    (h : ∀ k o es r, Effect s i k o es r → P k ∧ P o) (d : Chan) : P (t.ch d) := by
  obtain ⟨k, o, es, r, rfl, he⟩ := exec_effect i s t hx
  rcases eq_or_other i.chan d with rfl | rfl
  · rw [ch_afterBoth]
    exact (h k o es r he).1
  · rw [ch_afterBoth_other]
    exact (h k o es r he).2

/-- Rules R6, R62, R203 and R220: everything a step can be. -/
theorem step_cases (h : step s = .next t) :
    t = s.idle ∨ (∃ rest, t = s.applyReset rest) ∨ (∃ p rest cause, t = (s.sample p rest).illegal cause) ∨
      ∃ i p rest, exec i (s.sample p rest) = .next t := by
  unfold step at h
  split at h
  · cases h
    exact .inl rfl
  · cases h
    exact .inr (.inl ⟨_, rfl⟩)
  · split at h
    · exact .inr (.inr (.inr ⟨_, _, _, h⟩))
    · cases h
      exact .inr (.inr (.inl ⟨_, _, _, rfl⟩))

end Sys2Proof.Machine
end

section
/-!
Proofs of the statements about 10_state.md, sections 8 and 9: the reset values (rule R53) and `STATUS` (rule R48).
-/

namespace Sys2Proof.Machine

variable {s : State}

/-! ## Reset (rule R53) -/

/-- Rule R53, the table of reset values: the counts of this platform evaluated. -/
theorem channel_reset_platform :
    Channel.reset Params.platform =
      { distance := 0#32, position := 0#32, direction := .none, active := false, curcount := 21376#32,
        nextcount := 21376#32, rampstep := 0#32, rampfloor := 0#32, compdue := true, lastedge := 0#32,
        jogdist := 0#32, hfirst := true, hstate := false, cfgSpr := 200#32, cfgMinrpm := 30#32,
        cfgMaxrpm := 300#32, cfgAccel := 600#32, zerocount := 21376#32, mincount := 1000#32,
        maxcount := 10000#32, linkAttached := false, linkMajor := 0#32, linkMinor := 0#32, linkErr := 0#64,
        linkSign := .none, linkTarget := 0#32 } := by
  decide

theorem step_of_inputs_reset {rest : List (PortInput 2 32)} (h : s.inputs = .reset :: rest) :
    step s = .next (s.applyReset rest) := by
  unfold step
  rw [h]

/-- Settles O11: reset puts `Channel.reset` of the platform in both channels, and that is the table of rule R53. -/
theorem resetGivesEveryRegisterItsResetValue : Obligations.ResetGivesEveryRegisterItsResetValue := by
  unfold Obligations.ResetGivesEveryRegisterItsResetValue
  rw [← channel_reset_platform]
  refine ⟨ch_State_reset 0, ch_State_reset 1, fun s rest h => ⟨s.applyReset rest, step_of_inputs_reset h, ?_⟩⟩
  exact ⟨ch_applyReset s rest 0, ch_applyReset s rest 1, rfl, rfl⟩

/-! ## The packed view (rule R48) -/

/-- Rule R48: `STATUS` as bits pushed in from below, `isRunning` last. -/
theorem Channel.status_eq_concat (k : Channel 32 64) :
    k.status = ((((((((0#22 ++ k.direction.code).concat false).concat k.linkAttached).concat k.hstate).concat
      k.hfirst).concat k.compdue).concat k.active).concat k.isAtTarget).concat k.isRunning := rfl

/-- A field that starts above the lowest bit does not see that bit. -/
theorem extractLsb'_succ_concat {n : Nat} (x : BitVec n) (b : Bool) (start len : Nat) :
    (x.concat b).extractLsb' (start + 1) len = x.extractLsb' start len := by
  refine BitVec.eq_of_getLsbD_eq fun j hj => ?_
  rw [BitVec.getLsbD_extractLsb', BitVec.getLsbD_extractLsb', Nat.add_right_comm, BitVec.getLsbD_concat_succ]

theorem Channel.isRunning_eq (k : Channel 32 64) : k.isRunning = decide (k.direction ≠ .none) := by
  cases hd : k.direction with
  | clockwise | counterClockwise | none => rw [Channel.isRunning, hd]; rfl

/-- Settles O40: a bit pushed in last is bit 0, and every field above it is read off the word before the push. -/
theorem statusPacksTheFlags : Obligations.StatusPacksTheFlags := by
  intro k
  rw [k.status_eq_concat]
  simp only [BitVec.getLsbD_concat_zero, BitVec.getLsbD_concat_succ, extractLsb'_succ_concat,
    BitVec.extractLsb'_append_eq_right, BitVec.extractLsb'_append_eq_left, and_true]
  exact ⟨Channel.isRunning_eq k, rfl⟩

end Sys2Proof.Machine
end

section
/-!
Proofs of the statements about 10_state.md, section 5: the configuration registers and the counts derived from them.
-/

namespace Sys2Proof.Machine

variable {s t : State} {i : Instr} {c : Chan} {k k' o : Channel 32 64} {pre es : List (DriverEvent 2)} {r : Response}

/-! ## MINCOUNT and MAXCOUNT (rules R41 and R176) -/

/-- Rule R176: the clamp in a register that can hold the lower bound. -/
theorem toNat_clampCount {w : Nat} (hw : 0 < w) (x : Nat) :
    (clampCount x : BitVec w).toNat = max 1 (min (2 ^ w - 1) x) := by
  have : 2 ≤ 2 ^ w := Nat.le_self_pow hw.ne' 2
  rw [clampCount, BitVec.toNat_ofNat]
  exact Nat.mod_eq_of_lt (by omega)

theorem one_le_toNat {v : U32} : 1 ≤ v.toNat ↔ v ≠ 0#32 := by
  rw [Nat.one_le_iff_ne_zero, ne_eq, ne_eq, BitVec.toNat_eq, BitVec.toNat_zero]

/-- Rule R176 on this platform, whose ticks per minute are 60000000. -/
theorem toNat_countOf_platform {rpm spr : U32} (hr : 1 ≤ rpm.toNat) (hs : 1 ≤ spr.toNat) :
    (Params.platform.countOf rpm spr).toNat = max 1 (min (2 ^ 32 - 1) (60000000 / (rpm.toNat * spr.toNat))) := by
  change (referenceCountOf 1000000 rpm spr).toNat = _
  rw [referenceCountOf, if_neg (not_or.2 ⟨one_le_toNat.1 hr, one_le_toNat.1 hs⟩), toNat_clampCount (by decide)]
  rfl

/-- Settles O44: the quotient of rule R176 does not grow with the speed, and `CFG_MINRPM < CFG_MAXRPM`. -/
theorem minCountIsAtMostMaxCount : Obligations.MinCountIsAtMostMaxCount := by
  rintro k ⟨hspr, hmin, hlt, -⟩ ⟨-, hmincount, hmaxcount⟩
  rw [hmincount, hmaxcount, toNat_countOf_platform (by omega) hspr, toNat_countOf_platform hmin hspr]
  have hq : 60000000 / (k.cfgMaxrpm.toNat * k.cfgSpr.toNat) ≤ 60000000 / (k.cfgMinrpm.toNat * k.cfgSpr.toNat) :=
    Nat.div_le_div_left (Nat.mul_le_mul_right _ hlt.le) (Nat.mul_pos hmin hspr)
  omega

/-! ## Configuration -/

/-- The configuration registers of a channel and the counts derived from them (rules R35 to R41). -/
def Channel.configuration (k : Channel 32 64) : U32 × U32 × U32 × U32 × U32 × U32 × U32 :=
  (k.cfgSpr, k.cfgMinrpm, k.cfgMaxrpm, k.cfgAccel, k.zerocount, k.mincount, k.maxcount)

theorem configuration_eq_iff : k'.configuration = k.configuration ↔
    k'.cfgSpr = k.cfgSpr ∧ k'.cfgMinrpm = k.cfgMinrpm ∧ k'.cfgMaxrpm = k.cfgMaxrpm ∧ k'.cfgAccel = k.cfgAccel ∧
    k'.zerocount = k.zerocount ∧ k'.mincount = k.mincount ∧ k'.maxcount = k.maxcount := by
  simp only [Channel.configuration, Prod.mk.injEq]

/-- Rule R186: a configuration that is legal and has its counts derived. -/
def Channel.ConfigSound (k : Channel 32 64) : Prop := k.ConfigLegal ∧ k.CountsDerived Params.platform

/-- What an accepted setter of channel `c` writes, before the counts are derived (rules R179 to R182). -/
inductive Setter (c : Chan) (k : Channel 32 64) : Instr → Channel 32 64 → Prop
  | spr (v : U32) (h : v ≠ 0#32) : Setter c k (.setspr c v) { k with cfgSpr := v }
  | minrpm (v : U32) (h : v ≠ 0#32) (h' : v.toNat < k.cfgMaxrpm.toNat) :
      Setter c k (.setminrpm c v) { k with cfgMinrpm := v }
  | maxrpm (v : U32) (h : k.cfgMinrpm.toNat < v.toNat) : Setter c k (.setmaxrpm c v) { k with cfgMaxrpm := v }
  | accel (v : U32) (h : v ≠ 0#32) (h' : k.direction = .none) : Setter c k (.setaccel c v) { k with cfgAccel := v }

@[simp] theorem recompute_configuration (k : Channel 32 64) : (recompute k).configuration = k.configuration := by
  obtain ⟨_, _, _, _, _, _, h⟩ := recompute_frame k
  rw [h]; rfl

@[simp] theorem accelCore_configuration (b : Bool) (k : Channel 32 64) :
    (accelCore b k).configuration = k.configuration := by
  obtain ⟨_, _, h⟩ := accelCore_frame b k
  rw [h]; rfl

@[simp] theorem decelCore_configuration (b : Bool) (k : Channel 32 64) :
    (decelCore b k).configuration = k.configuration := by
  obtain ⟨_, _, _, _, h⟩ := decelCore_frame b k
  rw [h]; rfl

theorem PollEffect.configuration (h : PollEffect s c k pre k' o es) : k'.configuration = k.configuration := by
  obtain ⟨_, _, _, _, _, _, rfl⟩ := h.frame
  rfl

/-- Rule R186: a command keeps the configuration of its channel or is an accepted setter. -/
theorem Effect.configuration_cases (h : Effect s i k o es r) :
    k.configuration = (s.ch i.chan).configuration ∨
    ∃ k₀, Setter i.chan (s.ch i.chan) i k₀ ∧ k = derive Params.platform k₀ := by
  cases h with
  | setspr c v _ hv => exact .inr ⟨_, .spr v hv, rfl⟩
  | setminrpm c v _ hv hlt => exact .inr ⟨_, .minrpm v hv hlt, rfl⟩
  | setmaxrpm c v _ hlt => exact .inr ⟨_, .maxrpm v hlt, rfl⟩
  | setaccel c v _ hv hd => exact .inr ⟨_, .accel v hv hd, rfl⟩
  | accel | decel => exact .inl (by simp [Instr.chan])
  | runRecomputes c _ _ _ _ _ hp => exact .inl (hp.configuration.trans (recompute_configuration _))
  | runCompares c _ _ _ _ _ hp | schedstep c _ _ _ hp => exact .inl hp.configuration
  | _ => exact .inl rfl

theorem Effect.other_configuration (h : Effect s i k o es r) :
    o.configuration = (s.ch (other i.chan)).configuration := by
  rcases h.other_cases with rfl | ⟨_, _, _, rfl⟩ <;> rfl

theorem configSound_of_configuration_eq (e : k'.configuration = k.configuration) (h : k.ConfigSound) :
    k'.ConfigSound := by
  obtain ⟨hspr, hmin, hmax, haccel, hz, hlow, hhigh⟩ := configuration_eq_iff.1 e
  unfold Channel.ConfigSound Channel.ConfigLegal Channel.CountsDerived
  rw [hspr, hmin, hmax, haccel, hz, hlow, hhigh]
  exact h

/-- Rules R179 to R182: an accepted setter keeps the configuration legal. -/
theorem Setter.configLegal (h : Setter c k i k') (hk : k.ConfigLegal) : k'.ConfigLegal := by
  obtain ⟨hspr, hmin, hlt, haccel⟩ := hk
  cases h with
  | spr v hv => exact ⟨one_le_toNat.2 hv, hmin, hlt, haccel⟩
  | minrpm v hv hlt' => exact ⟨hspr, one_le_toNat.2 hv, hlt', haccel⟩
  | maxrpm v hlt' => exact ⟨hspr, hmin, hlt', haccel⟩
  | accel v hv => exact ⟨hspr, hmin, hlt, one_le_toNat.2 hv⟩

theorem Effect.configSound (h : Effect s i k o es r) (hk : (s.ch i.chan).ConfigSound) : k.ConfigSound := by
  rcases h.configuration_cases with e | ⟨k₀, hs, rfl⟩
  · exact configSound_of_configuration_eq e hk
  · exact ⟨hs.configLegal hk.1, countsDerived_derive _ _⟩

/-- Settles O49: of the commands only an accepted setter writes the configuration, and the counts it derives keep their
values where their formula does not read the register it wrote. -/
theorem configurationIsWrittenOnlyByItsSetters : Obligations.ConfigurationIsWrittenOnlyByItsSetters := by
  intro i s t d hx
  obtain ⟨k, o, es, r, rfl, h⟩ := exec_effect i s t hx
  rcases eq_or_other i.chan d with rfl | rfl
  · rw [ch_afterBoth]
    rcases h.configuration_cases with e | ⟨k₀, hs, rfl⟩
    · obtain ⟨hspr, hmin, hmax, haccel, hz, hlow, hhigh⟩ := configuration_eq_iff.1 e
      exact ⟨fun _ => hspr, fun _ => hmin, fun _ => hmax, fun _ => haccel, fun _ =>
        ⟨fun _ => hz, fun _ => hlow, fun _ => hhigh⟩⟩
    · generalize s.ch i.chan = k, i.chan = c at hs ⊢
      cases hs with
      | spr v =>
        exact ⟨fun hn => absurd rfl (hn v), fun _ => rfl, fun _ => rfl, fun _ => rfl, fun _ =>
          ⟨fun hn => absurd rfl (hn v).1, fun hn => absurd rfl (hn v).1, fun hn => absurd rfl (hn v).1⟩⟩
      | minrpm v =>
        exact ⟨fun _ => rfl, fun hn => absurd rfl (hn v), fun _ => rfl, fun _ => rfl, fun ⟨hz, hmin, _⟩ =>
          ⟨fun _ => hz.symm, fun _ => hmin.symm, fun hn => absurd rfl (hn v).2⟩⟩
      | maxrpm v =>
        exact ⟨fun _ => rfl, fun _ => rfl, fun hn => absurd rfl (hn v), fun _ => rfl, fun ⟨hz, _, hmax⟩ =>
          ⟨fun _ => hz.symm, fun hn => absurd rfl (hn v).2, fun _ => hmax.symm⟩⟩
      | accel v =>
        exact ⟨fun _ => rfl, fun _ => rfl, fun _ => rfl, fun hn => absurd rfl (hn v), fun ⟨_, hmin, hmax⟩ =>
          ⟨fun hn => absurd rfl (hn v).2, fun _ => hmin.symm, fun _ => hmax.symm⟩⟩
  · rw [ch_afterBoth_other]
    obtain ⟨hspr, hmin, hmax, haccel, hz, hlow, hhigh⟩ := configuration_eq_iff.1 h.other_configuration
    exact ⟨fun _ => hspr, fun _ => hmin, fun _ => hmax, fun _ => haccel, fun _ =>
      ⟨fun _ => hz, fun _ => hlow, fun _ => hhigh⟩⟩

end Sys2Proof.Machine
end

section
/-!
Proofs of the statements about 10_state.md, section 2: `POSITION` (rule R23) and `ACTIVE` (rule R25).
-/

namespace Sys2Proof.Machine

variable {s t : State} {i : Instr} {c : Chan} {k k' o : Channel 32 64} {pre es : List (DriverEvent 2)} {r : Response}

/-! ## POSITION -/

/-- Rule R23: the writers of `POSITION` among the commands of its own channel. -/
theorem Effect.position_cases (h : Effect s i k o es r) :
    k.position = (s.ch i.chan).position ∨ i = .run i.chan ∨ i = .schedstep i.chan ∨ i = .referencing i.chan ∨
      ∃ v, i = .wrpos i.chan v := by
  cases h with
  | runAtRest | runRecomputes | runCompares => exact .inr (.inl rfl)
  | schedstep => exact .inr (.inr (.inl rfl))
  | homeFound | homeSteps | homeWaits => exact .inr (.inr (.inr (.inl rfl)))
  | wrpos c v => exact .inr (.inr (.inr (.inr ⟨v, rfl⟩)))
  | accel c b =>
    obtain ⟨_, _, h⟩ := accelCore_frame b (s.ch c)
    exact .inl (by rw [h]; rfl)
  | decel c b =>
    obtain ⟨_, _, _, _, h⟩ := decelCore_frame b (s.ch c)
    exact .inl (by rw [h]; rfl)
  | _ => exact .inl rfl

/-- Settles O48: the writers on the channel itself are those of `Effect.position_cases`, on the other one the link. -/
theorem positionHasFourWriters : Obligations.PositionHasFourWriters := by
  intro i s t d hx hne
  obtain ⟨k, o, es, r, rfl, h⟩ := exec_effect i s t hx
  rcases eq_or_other i.chan d with rfl | rfl
  · rw [ch_afterBoth] at hne
    rcases h.position_cases with he | hi | hi | hi | hi
    · exact absurd he hne
    · exact .inl (.inl hi)
    · exact .inl (.inr hi)
    · exact .inr (.inr (.inl hi))
    · exact .inr (.inr (.inr hi))
  · rw [ch_afterBoth_other] at hne
    rcases h.other_cases with rfl | ⟨hi, ha, -⟩
    · exact absurd rfl hne
    · rw [other_other]
      exact .inr (.inl ⟨hi, ha⟩)

/-! ## Driver events -/

theorem foldl_enables_enableEvents (s : State) (c : Chan) :
    (s.enableEvents c).foldl (DriverEvent.enables c) (s.ch c).active = true := by
  unfold Block.State.enableEvents
  split
  · assumption
  · exact if_pos rfl

theorem foldl_enables_enableEvents_ne (s : State) {c d : Chan} (h : c ≠ d) (on : Bool) :
    (s.enableEvents c).foldl (DriverEvent.enables d) on = on := by
  unfold Block.State.enableEvents
  split
  · rfl
  · exact if_neg h

/-- The events `es` turn the driver enables `a` of channel `c` and `b` of the other one into `a'` and `b'`. -/
def Enables (c : Chan) (es : List (DriverEvent 2)) (a b a' b' : Bool) : Prop :=
  es.foldl (DriverEvent.enables c) a = a' ∧ es.foldl (DriverEvent.enables (other c)) b = b'

theorem Enables.nil (c : Chan) (a b : Bool) : Enables c [] a b a b := ⟨rfl, rfl⟩

theorem Enables.append {es' : List (DriverEvent 2)} {a b a' b' a'' b'' : Bool} (h : Enables c es a b a' b')
    (h' : Enables c es' a' b' a'' b'') : Enables c (es ++ es') a b a'' b'' := by
  obtain ⟨rfl, rfl⟩ := h
  exact ⟨by rw [List.foldl_append, h'.1], by rw [List.foldl_append, h'.2]⟩

theorem Enables.emit {a b a' b' : Bool} (h : Enables c es a b a' b') (d : Chan) (e : Dir) :
    Enables c (es ++ [.emit d e]) a b a' b' := h.append ⟨rfl, rfl⟩

theorem Enables.enableEvents (s : State) (c : Chan) (b : Bool) :
    Enables c (s.enableEvents c) (s.ch c).active b true b :=
  ⟨foldl_enables_enableEvents s c, foldl_enables_enableEvents_ne s (ne_other c) b⟩

theorem Enables.enableEvents_other (s : State) (c : Chan) (a : Bool) :
    Enables c (s.enableEvents (other c)) a (s.ch (other c)).active a true :=
  ⟨foldl_enables_enableEvents_ne s (other_ne c) a, foldl_enables_enableEvents s (other c)⟩

/-- Rule R154: a settle pulse of a link. -/
theorem Enables.settle {a b a' b' : Bool} (h : Enables c es a b a' b') (l : Bool) (e : Dir) :
    Enables c (es ++ .emit c e :: (if l then [.emit (other c) .none] else [])) a b a' b' := by
  cases l with
  | false => exact h.emit c e
  | true => exact h.append ⟨rfl, rfl⟩

theorem PollEffect.enables {a b : Bool} (h : PollEffect s c k pre k' o es)
    (hpre : Enables c pre a b k.active (s.ch (other c)).active) : Enables c es a b k'.active o.active := by
  cases h with
  | notDue | idle => exact hpre.settle _ _
  | alone => exact hpre.emit _ _
  | noTarget | secondarySettles => exact (hpre.emit _ _).emit _ _
  | secondarySteps => exact (hpre.emit _ _).append ((Enables.enableEvents_other s c k.active).emit _ _)

@[simp] theorem recompute_active (k : Channel 32 64) : (recompute k).active = k.active := by
  obtain ⟨_, _, _, _, _, _, h⟩ := recompute_frame k
  rw [h]

/-- Rules R25, R122 and R123: the events of every command mirror `ACTIVE` of both channels. -/
theorem Effect.enables (h : Effect s i k o es r) :
    Enables i.chan es (s.ch i.chan).active (s.ch (other i.chan)).active k.active o.active := by
  cases h with
  | accel c b =>
    obtain ⟨_, _, hk⟩ := accelCore_frame b (s.ch c)
    rw [hk]
    exact .nil _ _ _
  | decel c b =>
    obtain ⟨_, _, _, _, hk⟩ := decelCore_frame b (s.ch c)
    rw [hk]
    exact .nil _ _ _
  | runAtRest c => exact (Enables.nil _ _ _).settle _ _
  | runRecomputes c _ _ _ _ _ hp =>
    refine hp.enables ?_
    rw [recompute_active]
    exact .enableEvents s c _
  | runCompares _ _ _ _ _ _ hp | schedstep _ _ _ _ hp => exact hp.enables (.nil _ _ _)
  | jogStops => exact (Enables.nil _ _ _).emit _ _
  | jogSteps | jogWaits | homeFound | homeSteps | homeWaits => exact (Enables.enableEvents s _ _).emit _ _
  | wakeup c => exact .enableEvents s c _
  | release c =>
    cases ha : (s.ch c).active with
    | false => simpa [Instr.chan, ha] using Enables.nil c _ _
    | true => exact ⟨by simp [DriverEvent.enables, Instr.chan], by simp [DriverEvent.enables, Instr.chan]⟩
  | _ => exact .nil _ _ _

/-- Settles O47: `Effect.enables`, one channel at a time. -/
theorem driverEventsMirrorActive : Obligations.DriverEventsMirrorActive := by
  intro i s t hx
  obtain ⟨k, o, es, r, rfl, h⟩ := exec_effect i s t hx
  obtain ⟨hk, ho⟩ := h.enables
  refine ⟨es, rfl, fun d => ?_⟩
  rcases eq_or_other i.chan d with rfl | rfl
  · rwa [ch_afterBoth]
  · rwa [ch_afterBoth_other]

end Sys2Proof.Machine
end

section
/-!
Proofs of the statements about the invariant of 10_state.md (rules R35 to R46 and R52 (e)): each part of it is kept by
every effect of a command, so the whole is kept by every step.
-/

namespace Sys2Proof.Machine

variable {s t : State} {i : Instr} {c : Chan} {k k' o : Channel 32 64} {pre es : List (DriverEvent 2)} {r : Response}

/-! ## The ramp index (rule R52 (e)) -/

theorem floorBelowIndex_vseed (k : Channel 32 64) : (vseed k).FloorBelowIndex := le_refl _

theorem floorBelowIndex_accelCore (b : Bool) (h : k.FloorBelowIndex) : (accelCore b k).FloorBelowIndex := by
  rcases accelCore_cases b k with ⟨_, e⟩ | ⟨_, hlt, e⟩
  · rw [e]
    exact h
  · rw [e]
    change k.rampfloor.toNat ≤ (BitVec.ofNat 32 (k.rampstep.toNat + 1)).toNat
    rw [BitVec.toNat_ofNat, Nat.mod_eq_of_lt (by omega)]
    exact Nat.le_succ_of_le h

theorem floorBelowIndex_decelCore (b : Bool) (k : Channel 32 64) : (decelCore b k).FloorBelowIndex := by
  rcases decelCore_cases b k with ⟨hlt, _, e⟩ | ⟨_, _, e⟩
  · rw [e]
    change k.rampfloor.toNat ≤ (BitVec.ofNat 32 (k.rampstep.toNat - 1)).toNat
    rw [BitVec.toNat_ofNat, Nat.mod_eq_of_lt (by omega)]
    omega
  · rw [e]

theorem floorBelowIndex_recompute (h : k.FloorBelowIndex) : (recompute k).FloorBelowIndex := by
  rcases recompute_cases k with ⟨_, e⟩ | ⟨_, _, e⟩ | ⟨_, _, e⟩ <;> rw [e]
  · exact floorBelowIndex_vseed k
  · exact floorBelowIndex_accelCore false h
  · exact floorBelowIndex_decelCore false k

theorem PollEffect.floorBelowIndex (h : PollEffect s c k pre k' o es) (hk : k.FloorBelowIndex) :
    k'.FloorBelowIndex := by
  obtain ⟨_, _, _, _, _, _, rfl⟩ := h.frame
  exact hk

theorem Effect.floorBelowIndex (h : Effect s i k o es r) (hk : (s.ch i.chan).FloorBelowIndex) :
    k.FloorBelowIndex := by
  cases h with
  | seedidle => exact le_refl _
  | accel _ b => exact floorBelowIndex_accelCore b hk
  | decel _ b => exact floorBelowIndex_decelCore b _
  | runRecomputes _ _ _ _ _ _ hp => exact hp.floorBelowIndex (floorBelowIndex_recompute hk)
  | runCompares _ _ _ _ _ _ hp | schedstep _ _ _ _ hp => exact hp.floorBelowIndex hk
  | _ => exact hk

/-! ## The link registers (rules R43, R45, R46 and R151) -/

/-- Rule R9: the direction of a sign is `None` exactly for 0. -/
theorem ofUnit_sign_eq_none_iff (x : Int) : Dir.ofUnit x.sign = .none ↔ x = 0 := by
  rcases lt_trichotomy x 0 with h | rfl | h
  · rw [Int.sign_eq_neg_one_of_neg h]
    exact iff_of_false (by decide) h.ne
  · exact iff_of_true rfl rfl
  · rw [Int.sign_eq_one_of_pos h]
    exact iff_of_false (by decide) h.ne'

/-- Rule R151: SYNC leaves a legal link, whatever the registers and the target. -/
theorem linkLegal_linkAttach (position target : BitVec 32) (k : Channel 32 64) :
    (linkAttach position target k).LinkLegal := by
  have hp := position.toInt_lt
  have hp' := position.le_toInt
  have ht := target.toInt_lt
  have ht' := target.le_toInt
  have hd := k.distance.toInt_lt
  have hd' := k.distance.le_toInt
  have hmajor : (linkAttach position target k).linkMajor.toNat = k.distance.toInt.natAbs :=
    (BitVec.toNat_ofNat _ _).trans (Nat.mod_eq_of_lt (by omega))
  have hminor : (linkAttach position target k).linkMinor.toNat = (target.toInt - position.toInt).natAbs :=
    (BitVec.toNat_ofNat _ _).trans (Nat.mod_eq_of_lt (by omega))
  have herr : (linkAttach position target k).linkErr.toInt = (k.distance.toInt.natAbs / 2 : Nat) := by
    change (BitVec.ofNat 64 _).toInt = _
    rw [← BitVec.ofInt_natCast]
    exact toInt_wrapS64 _ (by omega) (by omega)
  refine ⟨by omega, ?_, fun _ _ => by omega⟩
  rw [BitVec.toNat_eq, hminor, BitVec.toNat_zero]
  exact (ofUnit_sign_eq_none_iff _).trans Int.natAbs_eq_zero.symm

/-- Rule R153: in a legal link with `LINK_MINOR <= LINK_MAJOR` the subtraction does not wrap. -/
theorem toInt_linkErrLess (h : k.LinkLegal) (hpos : 0 < k.linkMajor.toNat)
    (hle : k.linkMinor.toNat ≤ k.linkMajor.toNat) :
    k.linkErrLess.toInt = k.linkErr.toInt - k.linkMinor.toNat := by
  obtain ⟨hmajor, -, herr⟩ := h
  obtain ⟨hlow, hhigh⟩ := herr hpos hle
  exact toInt_wrapS64 _ (by omega) (by omega)

/-- Rule R45: of the link registers a poll writes only the accumulator. -/
theorem linkLegal_of_linkErr (h : k.LinkLegal) (hmajor : k'.linkMajor = k.linkMajor)
    (hminor : k'.linkMinor = k.linkMinor) (hsign : k'.linkSign = k.linkSign)
    (herr : 0 < k.linkMajor.toNat → k.linkMinor.toNat ≤ k.linkMajor.toNat →
      -(k.linkMinor.toNat : Int) ≤ k'.linkErr.toInt ∧ k'.linkErr.toInt ≤ (k.linkMajor.toNat : Int) - 1) :
    k'.LinkLegal := by
  unfold Channel.LinkLegal
  rw [hmajor, hminor, hsign]
  exact ⟨h.1, h.2.1, herr⟩

theorem PollEffect.linkLegal (h : PollEffect s c k pre k' o es) (hk : k.LinkLegal) : k'.LinkLegal := by
  cases h with
  | secondarySettles _ _ _ _ he =>
    refine linkLegal_of_linkErr hk rfl rfl rfl fun hpos hle => ?_
    have hless := toInt_linkErrLess hk hpos hle
    have hold := hk.2.2 hpos hle
    change _ ≤ k.linkErrLess.toInt ∧ k.linkErrLess.toInt ≤ _
    omega
  | secondarySteps _ _ _ _ he =>
    refine linkLegal_of_linkErr hk rfl rfl rfl fun hpos hle => ?_
    have hless := toInt_linkErrLess hk hpos hle
    obtain ⟨hmajor, -, herr⟩ := hk
    obtain ⟨hlow, -⟩ := herr hpos hle
    change _ ≤ (wrapS 64 (k.linkErrLess.toInt + k.linkMajor.toNat)).toInt ∧
      (wrapS 64 (k.linkErrLess.toInt + k.linkMajor.toNat)).toInt ≤ _
    rw [toInt_wrapS64 _ (by omega) (by omega)]
    omega
  | _ => exact hk

theorem linkLegal_recompute (h : k.LinkLegal) : (recompute k).LinkLegal := by
  obtain ⟨_, _, _, _, _, _, e⟩ := recompute_frame k
  rw [e]
  exact h

theorem Effect.linkLegal (h : Effect s i k o es r) (hk : (s.ch i.chan).LinkLegal) : k.LinkLegal := by
  cases h with
  | sync => exact linkLegal_linkAttach _ _ _
  | accel c b =>
    obtain ⟨_, _, e⟩ := accelCore_frame b (s.ch c)
    rw [e]
    exact hk
  | decel c b =>
    obtain ⟨_, _, _, _, e⟩ := decelCore_frame b (s.ch c)
    rw [e]
    exact hk
  | runRecomputes _ _ _ _ _ _ hp => exact hp.linkLegal (linkLegal_recompute hk)
  | runCompares _ _ _ _ _ _ hp | schedstep _ _ _ _ hp => exact hp.linkLegal hk
  | _ => exact hk

/-! ## The invariant -/

/-- Rule R53: the reset values are legal. -/
theorem reset_legal : (Channel.reset Params.platform).Legal Params.platform :=
  ⟨by decide, countsDerived_reset _, by decide, by decide⟩

/-- Every command keeps both channels legal: its own part by part, of the other one it writes no register of the
invariant. -/
theorem Effect.legal (h : Effect s i k o es r) (hs : s.Inv) :
    k.Legal Params.platform ∧ o.Legal Params.platform := by
  constructor
  · obtain ⟨hconfig, hcounts, hfloor, hlink⟩ := hs i.chan
    obtain ⟨hconfig, hcounts⟩ := h.configSound ⟨hconfig, hcounts⟩
    exact ⟨hconfig, hcounts, h.floorBelowIndex hfloor, h.linkLegal hlink⟩
  · rcases h.other_cases with rfl | ⟨-, -, p, rfl⟩ <;> exact hs (other i.chan)

theorem exec_keeps_inv (hs : s.Inv) (hx : exec i s = .next t) : t.Inv :=
  forall_ch_of_effect hx fun _ _ _ _ h => h.legal hs

/-- Settles O43: `reset_legal`, in each channel. -/
theorem resetMeetsTheInvariant : Obligations.ResetMeetsTheInvariant := by
  intro c
  rw [ch_State_reset]
  exact reset_legal

/-- Settles O42: a step without a legal command keeps the registers or resets them; a command keeps the invariant by
`Effect.legal`. -/
theorem everyStepKeepsTheInvariant : Obligations.EveryStepKeepsTheInvariant := by
  intro s t hs h
  rcases step_cases h with rfl | ⟨rest, rfl⟩ | ⟨p, rest, cause, rfl⟩ | ⟨i, p, rest, hx⟩
  · exact hs
  · intro c
    rw [ch_applyReset]
    exact reset_legal
  · exact hs
  · exact exec_keeps_inv (s := s.sample p rest) hs hx

end Sys2Proof.Machine
end

section
/-!
Proof of the statement about the band of the delays (10_state.md, rule R52 (c)).
-/

namespace Sys2Proof.Machine

variable {s t : State} {i : Instr} {c : Chan} {k k' o : Channel 32 64} {pre es : List (DriverEvent 2)} {r : Response}

/-! ## The band (rule R52 (c)) -/

theorem Channel.InBand.mincount_le_maxcount (h : k.InBand) : k.mincount.toNat ≤ k.maxcount.toNat := h.1.trans h.2.1

/-- Rules R103 and R111: after a clamp both delays lie in the band if `CURCOUNT` does. -/
theorem inBand_accelCore (b : Bool) (h : k.InBand) : (accelCore b k).InBand := by
  have clamped (x) := clamp_mem_band k x h.mincount_le_maxcount
  obtain ⟨hlow, hhigh, -, -⟩ := h
  rcases accelCore_cases b k with ⟨_, e⟩ | ⟨_, _, e⟩ <;> rw [e] <;> exact ⟨hlow, hhigh, clamped _⟩

theorem bandWhileRunning_accelCore (b : Bool) (h : k.BandWhileRunning) : (accelCore b k).BandWhileRunning := by
  have hdir : (accelCore b k).direction = k.direction := by
    obtain ⟨_, _, e⟩ := accelCore_frame b k
    rw [e]
  intro hd
  exact inBand_accelCore b (h (hdir ▸ hd))

theorem bandWhileRunning_decelCore (b : Bool) (h : k.BandWhileRunning) : (decelCore b k).BandWhileRunning := by
  rcases decelCore_cases b k with ⟨_, _, e⟩ | ⟨_, _, e⟩ <;> rw [e]
  · intro hd
    have hk := h hd
    exact ⟨hk.1, hk.2.1, clamp_mem_band k _ hk.mincount_le_maxcount⟩
  · exact fun hd => absurd rfl hd

theorem inBand_vseed (h : k.mincount.toNat ≤ k.maxcount.toNat) : (vseed k).InBand :=
  have clamped := clamp_mem_band k k.virtualRamp.1 h
  ⟨clamped.1, clamped.2, clamped⟩

theorem bandWhileRunning_recompute (hle : k.mincount.toNat ≤ k.maxcount.toNat) (h : k.BandWhileRunning) :
    (recompute k).BandWhileRunning := by
  rcases recompute_cases k with ⟨_, e⟩ | ⟨_, _, e⟩ | ⟨_, _, e⟩ <;> rw [e]
  · exact fun _ => inBand_vseed hle
  · exact bandWhileRunning_accelCore false h
  · exact bandWhileRunning_decelCore false h

/-- Rule R126: a due poll rolls `NEXTCOUNT` into `CURCOUNT`. -/
theorem bandWhileRunning_roll (now : U32) (h : k.BandWhileRunning) : (k.move.roll now).BandWhileRunning := by
  intro hd
  obtain ⟨-, -, hnext⟩ := h hd
  exact ⟨hnext.1, hnext.2, hnext⟩

theorem PollEffect.bandWhileRunning (h : PollEffect s c k pre k' o es) (hk : k.BandWhileRunning) :
    k'.BandWhileRunning := by
  cases h with
  | notDue => exact hk
  | _ => exact bandWhileRunning_roll s.now hk

theorem Effect.bandWhileRunning (h : Effect s i k o es r)
    (hi : ∀ c v, i ≠ .setspr c v ∧ i ≠ .setminrpm c v ∧ i ≠ .setmaxrpm c v ∧ i ≠ .seedidle c)
    (hle : (s.ch i.chan).mincount.toNat ≤ (s.ch i.chan).maxcount.toNat) (hk : (s.ch i.chan).BandWhileRunning) :
    k.BandWhileRunning := by
  cases h with
  | setspr c v => exact absurd rfl (hi c v).1
  | setminrpm c v => exact absurd rfl (hi c v).2.1
  | setmaxrpm c v => exact absurd rfl (hi c v).2.2.1
  | seedidle c => exact absurd rfl (hi c 0#32).2.2.2
  | setaccel c v _ _ hd => exact fun hd' => absurd hd hd'
  | accel _ b => exact bandWhileRunning_accelCore b hk
  | decel _ b => exact bandWhileRunning_decelCore b hk
  | runRecomputes _ _ _ _ _ _ hp => exact hp.bandWhileRunning (bandWhileRunning_recompute hle hk)
  | runCompares _ _ _ _ _ _ hp | schedstep _ _ _ _ hp => exact hp.bandWhileRunning hk
  | _ => exact hk

/-- Settles O45: every delay a command computes under a running motor is clamped to the band, which is not empty by
`minCountIsAtMostMaxCount`; the other channel keeps its delays. -/
theorem runningDelaysStayInTheBand : Obligations.RunningDelaysStayInTheBand := by
  intro i s t hs hband hi hx
  refine forall_ch_of_effect hx fun k o es r h => ⟨?_, ?_⟩
  · obtain ⟨hconfig, hcounts, -⟩ := hs i.chan
    exact h.bandWhileRunning hi (minCountIsAtMostMaxCount _ hconfig hcounts).2 (hband i.chan)
  · rcases h.other_cases with rfl | ⟨-, -, p, rfl⟩ <;> exact hband (other i.chan)

end Sys2Proof.Machine
end

section
/-!
Proof of the statement about commands that no link carries to the other channel (rules R20, R152 and R155): every
operation on a channel commutes with a write to the other one.
-/

namespace Sys2Proof.Machine

section Commute

variable {w we : Nat} {par : Params 2 w we} (s : Block.State par) (c : Fin 2) (o k : Channel w we)

/-! ## Operations on a channel commute with a write to the other one -/

@[simp] theorem setCh_setCh_other : (s.setCh (other c) o).setCh c k = (s.setCh c k).setCh (other c) o :=
  Block.State.eq_of_ch c (by simp) (by simp) rfl rfl rfl rfl rfl

@[simp] theorem append_setCh_other (e : DriverEvent 2) :
    (s.setCh (other c) o).append e = (s.append e).setCh (other c) o := rfl

@[simp] theorem driverEmit_setCh_other (d : Dir) :
    driverEmit c d (s.setCh (other c) o) = (driverEmit c d s).setCh (other c) o := rfl

@[simp] theorem respond_setCh_other (b : Bool) (v : U32) :
    (s.setCh (other c) o).respond b v = (s.respond b v).setCh (other c) o := rfl

@[simp] theorem illegal_setCh_other (cause : IllegalCause) :
    (s.setCh (other c) o).illegal cause = (s.illegal cause).setCh (other c) o := rfl

@[simp] theorem elapsed_setCh_other : (s.setCh (other c) o).elapsed c = s.elapsed c := by
  simp [Block.State.elapsed]

@[simp] theorem stepDue_setCh_other : (s.setCh (other c) o).stepDue c = s.stepDue c := by
  simp [Block.State.stepDue]

@[simp] theorem cadenceDue_setCh_other : (s.setCh (other c) o).cadenceDue c = s.cadenceDue c := by
  simp [Block.State.cadenceDue]

@[simp] theorem wakeUp_setCh_other : wakeUp c (s.setCh (other c) o) = (wakeUp c s).setCh (other c) o := by
  unfold wakeUp
  rw [ch_other_setCh]
  split <;> simp

@[simp] theorem release_setCh_other : release c (s.setCh (other c) o) = (release c s).setCh (other c) o := by
  unfold release
  rw [ch_other_setCh]
  split <;> simp

@[simp] theorem dueStep_setCh_other : dueStep c (s.setCh (other c) o) = (dueStep c s).setCh (other c) o := by
  simp [dueStep]

@[simp] theorem runRecompute_setCh_other :
    runRecompute c (s.setCh (other c) o) = (runRecompute c s).setCh (other c) o := by
  unfold runRecompute
  rw [ch_other_setCh]
  split <;> simp

@[simp] theorem jogPoll_setCh_other (d : Dir) :
    jogPoll c d (s.setCh (other c) o) = (jogPoll c d s).setCh (other c) o := by
  unfold jogPoll
  simp only [wakeUp_setCh_other, cadenceDue_setCh_other]
  split <;> simp

@[simp] theorem homeFound_setCh_other : homeFound c (s.setCh (other c) o) = (homeFound c s).setCh (other c) o := by
  simp [homeFound]

@[simp] theorem homeSeek_setCh_other : homeSeek c (s.setCh (other c) o) = (homeSeek c s).setCh (other c) o := by
  unfold homeSeek
  simp only [ch_other_setCh, setCh_setCh_other, cadenceDue_setCh_other]
  split <;> simp

/-! ## An unlinked poll (rule R155) -/

variable {s c}

theorem syncSettle_unlinked (h : (s.ch c).linkAttached = false) : syncSettle c s = s := by
  simp [syncSettle, h]

theorem syncOnPrimaryStep_unlinked (h : (s.ch c).linkAttached = false) : syncOnPrimaryStep c s = s := by
  simp [syncOnPrimaryStep, h]

/-- Rule R126 without the link. -/
theorem schedStepCore_unlinked (h : (s.ch c).linkAttached = false) :
    schedStepCore c s = if s.stepDue c then dueStep c s else driverEmit c .none s := by
  have hdue : ((dueStep c s).ch c).linkAttached = false := by rwa [dueStep_eq_put, ch_put]
  unfold schedStepCore
  rw [syncOnPrimaryStep_unlinked hdue, syncSettle_unlinked hdue, syncSettle_unlinked (by rwa [ch_driverEmit]), ite_self]

theorem schedStepCore_setCh_other (h : (s.ch c).linkAttached = false) :
    schedStepCore c (s.setCh (other c) o) = (schedStepCore c s).setCh (other c) o := by
  rw [schedStepCore_unlinked h, schedStepCore_unlinked (by rwa [ch_other_setCh]), stepDue_setCh_other]
  split <;> simp

end Commute

variable {s t : State} {i : Instr} {c : Chan} {k k' o : Channel 32 64} {pre es : List (DriverEvent 2)} {r : Response}

/-! ## The commands (rule R155) -/

/-- Rule R155: no link carries the command `i` to the other channel. -/
def Unlinked (s : State) (i : Instr) : Prop :=
  (s.ch i.chan).linkAttached = false ∨ (i ≠ .run i.chan ∧ i ≠ .schedstep i.chan)

theorem unlinked_run : Unlinked s (.run c) ↔ (s.ch c).linkAttached = false := by
  simp [Unlinked, Instr.chan]

theorem unlinked_schedstep : Unlinked s (.schedstep c) ↔ (s.ch c).linkAttached = false := by
  simp [Unlinked, Instr.chan]

theorem linkAttached_runRecompute : ((runRecompute c s).ch c).linkAttached = (s.ch c).linkAttached := by
  rw [runRecompute_eq_put]
  split
  · rw [ch_put, recompute_linkAttached]
  · rfl

theorem execRun_setCh_other (o : Channel 32 64) (h : (s.ch c).linkAttached = false) (hx : execRun c s = .next t) :
    execRun c (s.setCh (other c) o) = .next (t.setCh (other c) o) := by
  unfold execRun at hx ⊢
  rw [ch_other_setCh]
  split at hx
  next hr =>
    cases hx
    simp [hr, syncSettle_unlinked, h]
  next hr =>
    cases hx
    rw [if_neg hr, runRecompute_setCh_other, schedStepCore_setCh_other o (by rwa [linkAttached_runRecompute]),
      respond_setCh_other]

theorem execSchedstep_setCh_other (o : Channel 32 64) (h : (s.ch c).linkAttached = false)
    (hx : execSchedstep c s = .next t) : execSchedstep c (s.setCh (other c) o) = .next (t.setCh (other c) o) := by
  cases hx
  rw [execSchedstep, schedStepCore_setCh_other o h, respond_setCh_other]

theorem execRunconst_setCh_other (o : Channel 32 64) {d : BitVec 2} (hx : execRunconst c d s = .next t) :
    execRunconst c d (s.setCh (other c) o) = .next (t.setCh (other c) o) := by
  unfold execRunconst at hx ⊢
  split at hx <;> cases hx <;> simp_all

theorem execReferencing_setCh_other (o : Channel 32 64) (hx : execReferencing c s = .next t) :
    execReferencing c (s.setCh (other c) o) = .next (t.setCh (other c) o) := by
  unfold execReferencing at hx ⊢
  simp only [wakeUp_setCh_other, sense_setCh] at hx ⊢
  split at hx <;> cases hx <;> simp_all

theorem execRdreg_setCh_other (o : Channel 32 64) {x : BitVec 8} (hx : execRdreg c x s = .next t) :
    execRdreg c x (s.setCh (other c) o) = .next (t.setCh (other c) o) := by
  unfold execRdreg at hx ⊢
  rw [ch_other_setCh]
  split at hx <;> cases hx <;> simp_all

theorem configure_setCh_other (o : Channel 32 64) {accepts : Bool} (hx : configure c accepts k s = .next t) :
    configure c accepts k (s.setCh (other c) o) = .next (t.setCh (other c) o) := by
  cases accepts <;> cases hx <;> simp [configure]

/-- Rules R20 and R155: but for SYNC, an unlinked command does not read the other channel. -/
theorem exec_setCh_other (o : Channel 32 64) (hx : exec i s = .next t) (hlink : Unlinked s i)
    (hsync : ∀ v, i ≠ .sync i.chan v) :
    exec i (s.setCh (other i.chan) o) = .next (t.setCh (other i.chan) o) := by
  cases i with
  | sync c v => exact absurd rfl (hsync v)
  | run c => exact execRun_setCh_other o (unlinked_run.1 hlink) hx
  | schedstep c => exact execSchedstep_setCh_other o (unlinked_schedstep.1 hlink) hx
  | runconst c d => exact execRunconst_setCh_other o hx
  | referencing c => exact execReferencing_setCh_other o hx
  | rdreg c x => exact execRdreg_setCh_other o hx
  | setspr c v | setminrpm c v | setmaxrpm c v | setaccel c v =>
    simp only [exec, execSetspr, execSetminrpm, execSetmaxrpm, execSetaccel, Instr.chan, ch_other_setCh] at hx ⊢
    exact configure_setCh_other o hx
  | nop c => cases hx; rfl
  | _ =>
    cases hx
    simp [exec, Instr.chan, execSeedidle, execAccel, execDecel, execSetdist, execIsrunning, execAttarget,
      execIsactive, execWakeup, execRelease, execEndsync, execWrpos]

/-- Rules R20 and R155: an unlinked command does not write the other channel. -/
theorem Effect.other_of_unlinked (h : Effect s i k o es r) (hlink : Unlinked s i) : o = s.ch (other i.chan) := by
  refine h.other_cases.resolve_right ?_
  rintro ⟨hi, ha, -⟩
  rcases hlink with hfree | ⟨hrun, hsched⟩
  · exact absurd (ha.symm.trans hfree) (by decide)
  · exact hi.elim hrun hsched

/-! ## The ports of an unlinked command -/

theorem chan_of_mem_enableEvents {e : DriverEvent 2} (h : e ∈ s.enableEvents c) : e.chan = c := by
  unfold Block.State.enableEvents at h
  split at h
  · exact absurd h List.not_mem_nil
  · rw [List.mem_singleton.1 h]
    rfl

theorem PollEffect.chan_of_mem (h : PollEffect s c k pre k' o es) (ha : k.linkAttached = false)
    (hpre : ∀ e ∈ pre, e.chan = c) : ∀ e ∈ es, e.chan = c := by
  cases h with
  | notDue | idle =>
    simp only [ha, Bool.false_eq_true, if_false, List.forall_mem_append, List.forall_mem_singleton]
    exact ⟨hpre, rfl⟩
  | alone =>
    simp only [List.forall_mem_append, List.forall_mem_singleton]
    exact ⟨hpre, rfl⟩
  | noTarget _ _ ha' | secondarySettles _ _ ha' | secondarySteps _ _ ha' =>
    exact absurd (ha'.symm.trans ha) (by decide)

theorem Effect.chan_of_mem (h : Effect s i k o es r) (hlink : Unlinked s i) : ∀ e ∈ es, e.chan = i.chan := by
  cases h with
  | runAtRest c =>
    simp [Block.State.settleEvents, unlinked_run.1 hlink, DriverEvent.chan, Instr.chan]
  | runRecomputes c _ _ _ _ _ hp =>
    refine hp.chan_of_mem ?_ fun _ => chan_of_mem_enableEvents
    exact (recompute_linkAttached _).trans (unlinked_run.1 hlink)
  | runCompares c _ _ _ _ _ hp =>
    exact hp.chan_of_mem (unlinked_run.1 hlink) (List.forall_mem_nil _)
  | schedstep c _ _ _ hp =>
    exact hp.chan_of_mem (unlinked_schedstep.1 hlink) (List.forall_mem_nil _)
  | jogStops => exact List.forall_mem_singleton.2 rfl
  | jogSteps | jogWaits | homeFound | homeSteps | homeWaits =>
    exact List.forall_mem_append.2 ⟨fun _ => chan_of_mem_enableEvents, List.forall_mem_singleton.2 rfl⟩
  | wakeup => exact fun _ => chan_of_mem_enableEvents
  | release c =>
    split
    · exact List.forall_mem_singleton.2 rfl
    · exact List.forall_mem_nil _
  | _ => exact List.forall_mem_nil _

/-- Settles O51: what an unlinked command writes and emits is read off its effect; that it does not read the other
channel is `exec_setCh_other`. -/
theorem unlinkedCommandsKeepToTheirChannel : Obligations.UnlinkedCommandsKeepToTheirChannel := by
  intro i s t hlink hx
  obtain ⟨k, o, es, r, ht, h⟩ := exec_effect i s t hx
  refine ⟨?_, ⟨es, by rw [ht, events_afterBoth], h.chan_of_mem hlink⟩, fun hsync o => exec_setCh_other o hx hlink hsync⟩
  rw [ht, ch_afterBoth_other]
  exact h.other_of_unlinked hlink

end Sys2Proof.Machine
end

section
/-!
Proof of the statement about the command port (20_memory.md, rules R62 and R70): a step on a legal word runs its
instruction.
-/

namespace Sys2Proof

/-- Rule R85: the decoder accepts well-formed instructions only. -/
theorem wellFormed_of_decode {w : BitVec 64} {i : Instr} (h : decode w = .ok i) : i.wellFormed = true := by
  obtain ⟨_, _, _, _, _, _, hwf⟩ := (decode_ok_iff w i).1 h
  exact hwf

namespace Machine

variable {s : State} {p : Command 2 32} {rest : List (PortInput 2 32)} {i : Instr}

theorem step_of_decode_ok (hs : s.inputs = .command p :: rest) (hp : decode p.word = .ok i) :
    step s = exec i (s.sample p rest) := by
  unfold step
  rw [hs]
  dsimp only
  rw [hp]

/-- Settles O8: the state the statement writes out is `Block.State.sample`. -/
theorem stepRunsTheDecodedCommand : Obligations.StepRunsTheDecodedCommand :=
  fun _ _ _ _ hs hp => ⟨wellFormed_of_decode hp, step_of_decode_ok hs hp⟩

end Machine

end Sys2Proof
end

section
/-!
Proof of the statement about a physical step of a linked primary (20_memory.md, rule R73): the three effects the link
can have, with their wraps carried out on the registers.
-/

namespace Sys2Proof.Machine

/-! ## Wraps on the registers (rule R8) -/

section Wrap

variable {w we : Nat}

theorem wrapS_add_toNat (x : BitVec we) (y : BitVec w) : wrapS we (x.toInt + y.toNat) = x + y.setWidth we := by
  rw [wrapS, BitVec.ofInt_add, BitVec.ofInt_toInt, BitVec.ofInt_natCast, BitVec.ofNat_toNat]

theorem wrapS_sub_toNat (x : BitVec we) (y : BitVec w) : wrapS we (x.toInt - y.toNat) = x - y.setWidth we := by
  rw [wrapS, Int.sub_eq_add_neg, BitVec.ofInt_add, BitVec.ofInt_neg, ← BitVec.sub_eq_add_neg, BitVec.ofInt_toInt,
    BitVec.ofInt_natCast, BitVec.ofNat_toNat]

/-- Rule R9: a unit step up in any direction, `None` included. -/
theorem wrapS_add_unit (x : BitVec w) (d : Dir) :
    wrapS w (x.toInt + d.unit) =
      match d with
      | .counterClockwise => x + 1#w
      | .clockwise => x - 1#w
      | .none => x := by
  cases d with
  | clockwise => exact (wrapS_unit x .clockwise (by decide)).2
  | counterClockwise => exact (wrapS_unit x .counterClockwise (by decide)).2
  | none => exact (congrArg (BitVec.ofInt w) (Int.add_zero _)).trans (BitVec.ofInt_toInt)

/-- Rule R153: the accumulator less `LINK_MINOR`. -/
theorem linkErrLess_eq_sub (k : Channel w we) : k.linkErrLess = k.linkErr - k.linkMinor.setWidth we :=
  wrapS_sub_toNat k.linkErr k.linkMinor

/-- Rule R126: the registers after a physical step, before the link. -/
theorem roll_move_of_running (k : Channel w we) (now : BitVec w) (h : k.direction ≠ .none) :
    k.move.roll now =
      { k with
        distance := if k.direction = .counterClockwise then k.distance - 1#w else k.distance + 1#w
        position := if k.direction = .counterClockwise then k.position + 1#w else k.position - 1#w
        lastedge := now
        curcount := k.nextcount
        compdue := true } := by
  rw [Channel.move, (wrapS_unit k.distance k.direction h).1, (wrapS_unit k.position k.direction h).2]
  rfl

end Wrap

/-- Rules R126 and R127: SCHEDSTEP answers a next state, with one of the effects of the comparator. -/
theorem exec_schedstep_effect (c : Chan) (s : State) :
    ∃ k o es, exec (.schedstep c) s = .next (s.afterBoth c k o es (.ok false 0#32)) ∧
      PollEffect s c (s.ch c) [] k o es := by
  obtain ⟨k, o, es, hput, h⟩ := schedStepCore_effect s c (s.ch c) []
  rw [put_self] at hput
  refine ⟨k, o, es, ?_, h⟩
  rw [← respond_put, ← hput]
  rfl

/-- Settles O27: of the effects of a poll those of a due step, in a direction, of a linked primary remain, one for each
arm of the statement. -/
theorem schedStepDrivesTheLink : Obligations.SchedStepDrivesTheLink := by
  intro c s hdue hdir hlink k o ccw stepped err
  have hstepped : k.move.roll s.now = stepped := roll_move_of_running k s.now hdir
  have herr : k.linkErrLess = err := linkErrLess_eq_sub k
  obtain ⟨k', o', es, hx, h⟩ := exec_schedstep_effect c s
  rw [hx, ← hstepped, ← herr]
  cases h with
  | notDue hlt => exact absurd hdue (Nat.not_le.2 hlt)
  | idle _ hnone => exact absurd hnone hdir
  | alone _ _ hfree => exact absurd (hlink.symm.trans hfree) (by decide)
  | noTarget _ _ _ hm =>
    rw [if_pos hm]
    rfl
  | secondarySettles _ _ _ hm he =>
    rw [if_neg hm, if_neg (Int.not_lt.2 he)]
    rfl
  | secondarySteps _ _ _ hm he =>
    rw [if_neg hm, if_pos he, wrapS_add_toNat, wrapS_add_unit]
    rfl

end Sys2Proof.Machine
end

section
/-!
Proof of the statement about the sense inputs (20_memory.md, rule R64): every operation but the test of REFERENCING
commutes with other sense readings.
-/

namespace Sys2Proof.Machine

/-- Rule R64: the state with other readings of the sense inputs. -/
def Block.State.withSense {nch w we : Nat} {par : Params nch w we} (s : Block.State par) (v : BitVec nch) :
    Block.State par :=
  { s with sense := v }

section Commute

variable {w we : Nat} {par : Params 2 w we} (s : Block.State par) (v : BitVec 2) (c : Fin 2)

/-! ## Operations commute with other sense readings -/

theorem withSense_ite (p : Prop) [Decidable p] (s' : Block.State par) :
    (if p then s else s').withSense v = if p then s.withSense v else s'.withSense v :=
  apply_ite (fun x => Block.State.withSense x v) p s s'

@[simp] theorem ch_withSense : (s.withSense v).ch c = s.ch c := rfl

@[simp] theorem senseOf_withSense : (s.withSense v).senseOf c = v.getLsbD c := rfl

@[simp] theorem stepDue_withSense : (s.withSense v).stepDue c = s.stepDue c := rfl

@[simp] theorem cadenceDue_withSense : (s.withSense v).cadenceDue c = s.cadenceDue c := rfl

@[simp] theorem setCh_withSense (k : Channel w we) : (s.withSense v).setCh c k = (s.setCh c k).withSense v := rfl

@[simp] theorem driverEmit_withSense (d : Dir) :
    driverEmit c d (s.withSense v) = (driverEmit c d s).withSense v := rfl

@[simp] theorem respond_withSense (b : Bool) (x : U32) :
    (s.withSense v).respond b x = (s.respond b x).withSense v := rfl

@[simp] theorem illegal_withSense (cause : IllegalCause) :
    (s.withSense v).illegal cause = (s.illegal cause).withSense v := rfl

@[simp] theorem wakeUp_withSense : wakeUp c (s.withSense v) = (wakeUp c s).withSense v := by
  rw [wakeUp_eq_put, wakeUp_eq_put]
  rfl

@[simp] theorem release_withSense : release c (s.withSense v) = (release c s).withSense v := by
  rw [release_eq_put, release_eq_put]
  rfl

@[simp] theorem syncSettle_withSense : syncSettle c (s.withSense v) = (syncSettle c s).withSense v := by
  rw [syncSettle_eq_put, syncSettle_eq_put]
  rfl

@[simp] theorem dueStep_withSense : dueStep c (s.withSense v) = (dueStep c s).withSense v := rfl

@[simp] theorem secondaryStep_withSense (d : Dir) :
    secondaryStep c d (s.withSense v) = (secondaryStep c d s).withSense v := by
  simp [secondaryStep]

@[simp] theorem syncOnPrimaryStep_withSense :
    syncOnPrimaryStep c (s.withSense v) = (syncOnPrimaryStep c s).withSense v := by
  unfold syncOnPrimaryStep
  simp only [ch_withSense, setCh_withSense, secondaryStep_withSense, driverEmit_withSense, withSense_ite]

@[simp] theorem schedStepCore_withSense : schedStepCore c (s.withSense v) = (schedStepCore c s).withSense v := by
  unfold schedStepCore
  simp only [ch_withSense, stepDue_withSense, dueStep_withSense, driverEmit_withSense, syncSettle_withSense,
    syncOnPrimaryStep_withSense, withSense_ite]

@[simp] theorem runRecompute_withSense : runRecompute c (s.withSense v) = (runRecompute c s).withSense v := by
  unfold runRecompute
  simp only [ch_withSense, wakeUp_withSense, setCh_withSense, withSense_ite]

@[simp] theorem jogPoll_withSense (d : Dir) : jogPoll c d (s.withSense v) = (jogPoll c d s).withSense v := by
  unfold jogPoll
  simp only [wakeUp_withSense, withSense_ite]
  rfl

@[simp] theorem homeFound_withSense : homeFound c (s.withSense v) = (homeFound c s).withSense v := rfl

@[simp] theorem homeSeek_withSense : homeSeek c (s.withSense v) = (homeSeek c s).withSense v := by
  unfold homeSeek
  simp only [withSense_ite]
  rfl

end Commute

variable {s t : State} {c : Chan} {v : BitVec 2}

/-! ## The commands (rule R64) -/

theorem execRun_withSense (hx : execRun c s = .next t) : execRun c (s.withSense v) = .next (t.withSense v) := by
  unfold execRun at hx ⊢
  rw [ch_withSense]
  split at hx
  next hr =>
    cases hx
    simp [hr]
  next hr =>
    cases hx
    simp [hr]

theorem execRunconst_withSense {d : BitVec 2} (hx : execRunconst c d s = .next t) :
    execRunconst c d (s.withSense v) = .next (t.withSense v) := by
  unfold execRunconst at hx ⊢
  split at hx <;> cases hx <;> simp

theorem execRdreg_withSense {x : BitVec 8} (hx : execRdreg c x s = .next t) :
    execRdreg c x (s.withSense v) = .next (t.withSense v) := by
  unfold execRdreg at hx ⊢
  rw [ch_withSense]
  split at hx <;> cases hx <;> rfl

theorem configure_withSense {accepts : Bool} {k : Channel 32 64} (hx : configure c accepts k s = .next t) :
    configure c accepts k (s.withSense v) = .next (t.withSense v) := by
  cases accepts with
  | true | false => cases hx; rfl

/-- Rule R168: REFERENCING reads the sense input of its channel, and no other. -/
theorem execReferencing_withSense (hv : v.getLsbD c = s.senseOf c) (hx : execReferencing c s = .next t) :
    execReferencing c (s.withSense v) = .next (t.withSense v) := by
  have hsense : (wakeUp c s).senseOf c = v.getLsbD c := by rw [wakeUp_eq_put, sense_put, hv]
  unfold execReferencing at hx ⊢
  simp only [wakeUp_withSense, senseOf_withSense, hsense] at hx ⊢
  split at hx
  next hfound =>
    cases hx
    simp [hfound]
  next hseek =>
    cases hx
    simp [hseek]

/-- Settles O50: a command is made of operations that commute with other readings; REFERENCING tests one input, whose
reading is the same in both runs. -/
theorem senseIsReadOnlyByReferencing : Obligations.SenseIsReadOnlyByReferencing := by
  intro i s t v hv hx
  change exec i (s.withSense v) = .next (t.withSense v)
  cases i with
  | referencing c => exact execReferencing_withSense (hv c rfl) hx
  | run c => exact execRun_withSense hx
  | runconst c d => exact execRunconst_withSense hx
  | rdreg c x => exact execRdreg_withSense hx
  | setspr c x | setminrpm c x | setmaxrpm c x | setaccel c x => exact configure_withSense hx
  | schedstep c | wakeup c | release c =>
    cases hx
    simp [exec, execSchedstep, execWakeup, execRelease]
  | _ => cases hx; rfl

end Sys2Proof.Machine
end

section
/-!
Proofs of the statements about the command word (30_encoding.md): the decoder and the encoder are inverse to each other
(rules R80 to R83), the legal words are the rows of the opcode map (rules R84 and R85), and where the response word
holds its fields (rule R82).
-/

namespace Sys2Proof

/-! ## Encoding, then decoding (rules R80, R81 and R83) -/

theorem encodedFields (i : Instr) : Laws.EncodedFields.Statement i := by
  cases i with
  | nop c => exact Laws.EncodedFields.nop c
  | seedidle c => exact Laws.EncodedFields.seedidle c
  | accel c keep => exact Laws.EncodedFields.accel c keep
  | decel c keep => exact Laws.EncodedFields.decel c keep
  | setdist c steps => exact Laws.EncodedFields.setdist c steps
  | run c => exact Laws.EncodedFields.run c
  | schedstep c => exact Laws.EncodedFields.schedstep c
  | runconst c d => exact Laws.EncodedFields.runconst c d
  | isrunning c => exact Laws.EncodedFields.isrunning c
  | attarget c => exact Laws.EncodedFields.attarget c
  | isactive c => exact Laws.EncodedFields.isactive c
  | wakeup c => exact Laws.EncodedFields.wakeup c
  | release c => exact Laws.EncodedFields.release c
  | sync c target => exact Laws.EncodedFields.sync c target
  | endsync c => exact Laws.EncodedFields.endsync c
  | referencing c => exact Laws.EncodedFields.referencing c
  | setspr c v => exact Laws.EncodedFields.setspr c v
  | setminrpm c v => exact Laws.EncodedFields.setminrpm c v
  | setmaxrpm c v => exact Laws.EncodedFields.setmaxrpm c v
  | setaccel c v => exact Laws.EncodedFields.setaccel c v
  | rdreg c x => exact Laws.EncodedFields.rdreg c x
  | wrpos c v => exact Laws.EncodedFields.wrpos c v

/-- Settles O1: the word of `i` names the row and the channel of `i`, sets no reserved bit, and its operand fields
assemble to `i` again, so every check of the decoder passes. -/
theorem decodeOfEncodeIsTheInstruction : Obligations.DecodeOfEncodeIsTheInstruction := by
  intro i hwf
  obtain ⟨hop, hch, harg, -, himm, hreserved⟩ := encodedFields i
  refine (decode_ok_iff _ _).2 ⟨i.opcode, i.chan, ?_, ?_, hreserved, ?_, hwf⟩
  · rw [hop, ofByte_byte]
  · rw [hch, chanOfByte_chanByte]
  · rw [harg, himm, assemble_fields]

/-! ## Decoding, then encoding (rules R80 and R85) -/

theorem reservedBitSet_eq_false_iff (op : Opcode) (w : BitVec 64) :
    reservedBitSet op w = false ↔
      fieldRsv w = 0#8 ∧ fieldArg w &&& op.argForm.unusedBits = 0#8 ∧ (op.usesImm = true ∨ fieldImm w = 0#32) := by
  simp [reservedBitSet, and_assoc, or_iff_not_imp_left]

/-- Settles O2: with no reserved bit set, the row, the channel and the operands of the instruction hold every bit of the
five fields, and a word is made of its fields. -/
theorem acceptedWordIsTheWordOfItsInstruction : Obligations.AcceptedWordIsTheWordOfItsInstruction := by
  intro w i hdecode
  obtain ⟨op, c, hop, hch, hreserved, rfl, hwf⟩ := (decode_ok_iff w i).1 hdecode
  obtain ⟨hrsv, harg, himm⟩ := (reservedBitSet_eq_false_iff op w).1 hreserved
  refine ⟨hwf, ?_⟩
  calc encode (op.assemble c (fieldArg w) (fieldImm w))
      = commandWord op.byte (chanByte c) (fieldArg w) 0#8 (fieldImm w) := by
        rw [encode, assemble_opcode, assemble_chan, argByte_assemble op c _ _ harg, immWord_assemble op c _ _ himm]
    _ = commandWord (fieldOp w) (fieldCh w) (fieldArg w) (fieldRsv w) (fieldImm w) := by
        rw [byte_of_ofByte hop, byte_of_chanOfByte hch, hrsv]
    _ = w := commandWord_fields w

/-! ## The match and mask columns (rule R84) -/

theorem fieldOp_and (v w : BitVec 64) : fieldOp (v &&& w) = fieldOp v &&& fieldOp w := BitVec.extractLsb'_and

theorem fieldCh_and (v w : BitVec 64) : fieldCh (v &&& w) = fieldCh v &&& fieldCh w := BitVec.extractLsb'_and

theorem fieldArg_and (v w : BitVec 64) : fieldArg (v &&& w) = fieldArg v &&& fieldArg w := BitVec.extractLsb'_and

theorem fieldRsv_and (v w : BitVec 64) : fieldRsv (v &&& w) = fieldRsv v &&& fieldRsv w := BitVec.extractLsb'_and

theorem fieldImm_and (v w : BitVec 64) : fieldImm (v &&& w) = fieldImm v &&& fieldImm w := BitVec.extractLsb'_and

/-- Rule R80: the five fields leave no bit of a word out. -/
theorem eq_iff_fields (v w : BitVec 64) : v = w ↔
    fieldOp v = fieldOp w ∧ fieldCh v = fieldCh w ∧ fieldArg v = fieldArg w ∧ fieldRsv v = fieldRsv w ∧
      fieldImm v = fieldImm w := by
  constructor
  · rintro rfl
    exact ⟨rfl, rfl, rfl, rfl, rfl⟩
  · rintro ⟨hop, hch, harg, hrsv, himm⟩
    rw [← commandWord_fields v, ← commandWord_fields w, hop, hch, harg, hrsv, himm]

/-- The fields of the column `match`: only `OP` is fixed to a value other than 0. -/
theorem matchWord_eq (op : Opcode) : op.matchWord = commandWord op.byte 0#8 0#8 0#8 0#32 := by
  cases op <;> decide

/-- The fields of the column `mask`: all of `OP` and `RSV`, the bits of `CH` above channel 1, and what the row does not
use of `ARG` and `IMM`. -/
theorem maskWord_eq (op : Opcode) : op.maskWord =
    commandWord 0xFF#8 0xFE#8 op.argForm.unusedBits 0xFF#8 (if op.usesImm then 0#32 else 0xFFFFFFFF#32) := by
  cases op <;> decide

theorem ofByte_eq_some_iff (b : BitVec 8) (op : Opcode) : Opcode.ofByte b = some op ↔ b = op.byte := by
  constructor
  · exact fun h => (byte_of_ofByte h).symm
  · rintro rfl
    exact ofByte_byte op

theorem exists_chanOfByte_iff (b : BitVec 8) : (∃ c : Chan, chanOfByte b = some c) ↔ b &&& 0xFE#8 = 0#8 := by
  revert b
  decide

theorem and_immMask_eq_zero_iff (used : Bool) (imm : BitVec 32) :
    imm &&& (if used then 0#32 else 0xFFFFFFFF#32) = 0#32 ↔ used = true ∨ imm = 0#32 := by
  have hall : imm &&& 0xFFFFFFFF#32 = imm := BitVec.and_allOnes
  cases used <;> simp [hall]

/-- Rule R84: a word selects the row `op` exactly if the decoder's checks of `OP`, of `CH` and of the reserved bits pass
for `op`. -/
theorem and_maskWord_eq_matchWord_iff (op : Opcode) (w : BitVec 64) :
    w &&& op.maskWord = op.matchWord ↔
      Opcode.ofByte (fieldOp w) = some op ∧ (∃ c : Chan, chanOfByte (fieldCh w) = some c) ∧
        reservedBitSet op w = false := by
  have hbyte (b : BitVec 8) : b &&& 0xFF#8 = b := BitVec.and_allOnes
  rw [ofByte_eq_some_iff, exists_chanOfByte_iff, reservedBitSet_eq_false_iff, ← and_immMask_eq_zero_iff,
    eq_iff_fields, maskWord_eq, matchWord_eq]
  simp only [fieldOp_and, fieldCh_and, fieldArg_and, fieldRsv_and, fieldImm_and, fieldOp_commandWord,
    fieldCh_commandWord, fieldArg_commandWord, fieldRsv_commandWord, fieldImm_commandWord, hbyte]
  tauto

/-! ## Legal words (rule R85) -/

/-- Rule R85: the value-dependent checks, on the fields the operands are assembled from. -/
theorem wellFormed_assemble_iff (op : Opcode) (c : Chan) (arg : BitVec 8) (imm : BitVec 32) :
    (op.assemble c arg imm).wellFormed = true ↔
      (op = .runconst → arg.extractLsb' 0 2 ≠ 0b10#2) ∧ (op = .rdreg → arg.toNat ≤ 27) := by
  cases op <;> simp [Opcode.assemble, Instr.wellFormed]

/-- The direction code of rule R81 is the low two bits of `ARG`. -/
theorem extractLsb'_fieldArg (w : BitVec 64) : (fieldArg w).extractLsb' 0 2 = w.extractLsb' 40 2 := by
  apply BitVec.eq_of_getLsbD_eq
  intro i hi
  simp only [fieldArg, BitVec.getLsbD_extractLsb']
  simp [hi, show i < 8 by omega]

theorem exists_decode_ok_iff (w : BitVec 64) :
    (∃ i, decode w = .ok i) ↔
      ∃ op : Opcode, w &&& op.maskWord = op.matchWord ∧
        (op = .runconst → w.extractLsb' 40 2 ≠ 0b10#2) ∧
        (op = .rdreg → (w.extractLsb' 40 8).toNat ≤ 27) := by
  constructor
  · rintro ⟨i, hdecode⟩
    obtain ⟨op, c, hop, hch, hreserved, rfl, hwf⟩ := (decode_ok_iff w i).1 hdecode
    rw [wellFormed_assemble_iff, extractLsb'_fieldArg] at hwf
    exact ⟨op, (and_maskWord_eq_matchWord_iff op w).2 ⟨hop, ⟨c, hch⟩, hreserved⟩, hwf⟩
  · rintro ⟨op, hrow, hvalue⟩
    obtain ⟨hop, ⟨c, hch⟩, hreserved⟩ := (and_maskWord_eq_matchWord_iff op w).1 hrow
    rw [← extractLsb'_fieldArg] at hvalue
    exact ⟨_, (decode_ok_iff w _).2
      ⟨op, c, hop, hch, hreserved, rfl, (wellFormed_assemble_iff op c _ _).2 hvalue⟩⟩

/-- Rule R84: the row a legal word selects is that of the instruction read. -/
theorem selects_opcode_of_decode {w : BitVec 64} {i : Instr} (h : decode w = .ok i) :
    w &&& i.opcode.maskWord = i.opcode.matchWord := by
  obtain ⟨op, c, hop, hch, hreserved, rfl, -⟩ := (decode_ok_iff w i).1 h
  rw [assemble_opcode]
  exact (and_maskWord_eq_matchWord_iff op w).2 ⟨hop, ⟨c, hch⟩, hreserved⟩

theorem exists_cause_of_decode_ne_ok {w : BitVec 64} (h : ∀ i, decode w ≠ .ok i) :
    ∃ cause, decode w = .error cause := by
  cases hdecode : decode w with
  | ok i => exact absurd hdecode (h i)
  | error cause => exact ⟨cause, rfl⟩

namespace Machine

variable {s : State} {p : Command 2 32} {rest : List (PortInput 2 32)} {cause : IllegalCause}

theorem step_of_decode_error (hs : s.inputs = .command p :: rest) (hp : decode p.word = .error cause) :
    step s = .next ((s.sample p rest).illegal cause) := by
  unfold step
  rw [hs]
  dsimp only
  rw [hp]

/-- Settles O3: match and mask are the decoder's first three checks, read field by field, and the value-dependent fields
its last; a word that fails one takes the arm of `step` that only answers the cause. -/
theorem legalWordsAreTheRowsOfTheOpcodeMap : Obligations.LegalWordsAreTheRowsOfTheOpcodeMap := by
  intro w
  refine ⟨exists_decode_ok_iff w, fun i => selects_opcode_of_decode, ?_⟩
  rintro s p rest hs rfl hillegal
  obtain ⟨cause, hcause⟩ := exists_cause_of_decode_ne_ok hillegal
  exact ⟨_, cause, step_of_decode_error hs hcause, rfl, rfl, rfl, rfl⟩

/-! ## The response word (rule R82) -/

section ResponseWord

variable (r : Response)

theorem Response.word_err : r.word.getLsbD 63 = r.err := by
  simp only [Response.word, BitVec.getLsbD_append]
  simp

theorem Response.word_reserved : r.word.extractLsb' 33 30 = 0#30 := by
  rw [Response.word, BitVec.extractLsb'_append_eq_of_le (by decide), BitVec.extractLsb'_append_eq_of_le (by decide)]
  exact BitVec.extractLsb'_append_eq_right

theorem Response.word_b : r.word.getLsbD 32 = r.b := by
  simp only [Response.word, BitVec.getLsbD_append]
  simp

theorem Response.word_v : r.word.extractLsb' 0 32 = r.v := BitVec.extractLsb'_append_eq_right

end ResponseWord

/-- Settles O6, field by field. -/
theorem responseWordHoldsErrBAndV : Obligations.ResponseWordHoldsErrBAndV :=
  fun r => ⟨r.word_err, r.word_reserved, r.word_b, r.word_v⟩

end Machine

/-! ## Examples (rule R88) -/

/-- The decoder at one word is settled by encoding, without running its search for the opcode. -/
theorem decode_of_encode_eq {w : BitVec 64} {i : Instr} (hwf : i.wellFormed = true) (hw : encode i = w) :
    decode w = .ok i := hw ▸ decodeOfEncodeIsTheInstruction i hwf

/-- Settles O5: each example word is the word of its well-formed command. -/
theorem exampleWordsDecodeToTheirCommands : Obligations.ExampleWordsDecodeToTheirCommands :=
  ⟨decode_of_encode_eq rfl rfl, decode_of_encode_eq rfl rfl, decode_of_encode_eq rfl rfl, decode_of_encode_eq rfl rfl,
    decode_of_encode_eq rfl rfl⟩

end Sys2Proof
end

section
/-!
Proofs of the statements about 40_ramp_engine.md: the commands SEEDIDLE, ACCEL and DECEL as whole next states, with
their words, and the virtual ramp (rule R108) as an iterated recurrence.
-/

namespace Sys2Proof

/-- Rules R80 to R83: the word of a well-formed instruction, and the decoder's reading of it. -/
theorem encodedAs_fields {i : Instr} (hwf : i.wellFormed = true) :
    i.EncodedAs i.opcode.byte i.argByte i.immWord := by
  refine ⟨?_, decodeOfEncodeIsTheInstruction i hwf⟩
  rw [encode, chanByte_eq]
  rfl

namespace Machine

/-! ## The commands as whole next states (rules R110 to R112) -/

section Commands

variable (c : Chan) (keep : Bool) (s : State)

theorem exec_seedidle :
    exec (.seedidle c) s = .next (s.after c (seedIdleCore (s.ch c)) [] (.ok false 0#32)) :=
  congrArg _ (respond_setCh s c _ false 0#32)

theorem exec_accel :
    exec (.accel c keep) s =
      .next (s.after c (accelCore keep (s.ch c)) [] (.ok false (accelCore keep (s.ch c)).nextcount)) := by
  rw [← respond_setCh, ← unsignedWord_platform (accelCore keep (s.ch c)).nextcount]
  rfl

theorem exec_decel :
    exec (.decel c keep) s =
      .next (s.after c (decelCore keep (s.ch c)) []
        (.ok (s.ch c).decelStops (decelCore keep (s.ch c)).nextcount)) := by
  rw [← respond_setCh, ← unsignedWord_platform (decelCore keep (s.ch c)).nextcount]
  rfl

end Commands

/-! ## SEEDIDLE (rules R109 and R110) -/

/-- Rules R53 and R109: a channel after reset is in standstill already. -/
theorem seedIdleCore_reset {nch w we : Nat} (par : Params nch w we) :
    seedIdleCore (Channel.reset par) = Channel.reset par := rfl

/-- Settles O13: `seedIdleCore` is the record update of the statement, and the registers at reset are a fixed point
of it. -/
theorem seedIdleRestoresStandstill : Obligations.SeedIdleRestoresStandstill := by
  refine ⟨fun c s => ⟨encodedAs_fields rfl, exec_seedidle c s⟩, ?_⟩
  rw [exec_seedidle, ch_State_reset, seedIdleCore_reset, ← ch_State_reset 0, ← respond_eq_after]
  rfl

/-! ## ACCEL (rules R105, R111 and R114) -/

section Recurrence

variable {w we : Nat}

theorem cruises_iff (k : Channel w we) :
    k.cruises = true ↔
      k.rampstep.toNat = 2 ^ w - 1 ∨ accNext k.curcount.toNat (k.rampstep.toNat + 1) < k.mincount.toNat := by
  simp only [Channel.cruises, Bool.or_eq_true, beq_iff_eq, decide_eq_true_eq]

/-- Rule R101: the recurrence never lengthens the delay. -/
theorem accNext_le (cnt n : Nat) : accNext cnt n ≤ cnt := Nat.sub_le _ _

/-- Rule R103: a value no longer than a delay of the band is clamped to at most that delay. -/
theorem clamp_le_of_le (k : Channel w we) {x cnt : Nat} (hx : x ≤ cnt) (hlow : k.mincount.toNat ≤ cnt) :
    (k.clamp x).toNat ≤ cnt := by
  rw [clamp_toNat]
  exact (Nat.min_le_left _ _).trans (Nat.max_le.2 ⟨hx, hlow⟩)

/-- Rule R114, on the registers: from a delay in the band, whether the acceleration cruises or advances. -/
theorem accelCore_shortens (keep : Bool) (k : Channel w we) (hlow : k.mincount.toNat ≤ k.curcount.toNat)
    (hhigh : k.curcount.toNat ≤ k.maxcount.toNat) :
    (accelCore keep k).nextcount.toNat ≤ k.curcount.toNat ∧
    k.mincount.toNat ≤ (accelCore keep k).nextcount.toNat ∧
    k.rampstep.toNat ≤ (accelCore keep k).rampstep.toNat ∧
    (accelCore keep k).rampstep.toNat ≤ k.rampstep.toNat + 1 := by
  have above (x) := (clamp_mem_band k x (hlow.trans hhigh)).1
  rcases accelCore_cases keep k with ⟨_, e⟩ | ⟨_, hlt, e⟩ <;> rw [e]
  · exact ⟨clamp_le_of_le k le_rfl hlow, above _, le_rfl, Nat.le_succ _⟩
  · have hstep : (BitVec.ofNat w (k.rampstep.toNat + 1)).toNat = k.rampstep.toNat + 1 := by
      rw [BitVec.toNat_ofNat, Nat.mod_eq_of_lt (by omega)]
    exact ⟨clamp_le_of_le k (accNext_le _ _) hlow, above _, (Nat.le_succ _).trans_eq hstep.symm, hstep.le⟩

end Recurrence

/-- Settles O14: the test of the statement is `Channel.cruises`, its two arms are those of `accelCore`. -/
theorem accelFollowsTheRecurrence : Obligations.AccelFollowsTheRecurrence := by
  intro c keep s
  refine ⟨encodedAs_fields rfl, ?_⟩
  rw [exec_accel]
  rcases accelCore_cases keep (s.ch c) with ⟨hc, e⟩ | ⟨hc, _, e⟩ <;> rw [e]
  · exact congrArg _ (if_pos ((cruises_iff _).1 hc)).symm
  · exact congrArg _ (if_neg (mt (cruises_iff _).2 (Bool.eq_false_iff.1 hc))).symm

/-- Settles O17: the next state holds `accelCore` of the registers. -/
theorem accelerationNeverLengthensTheDelay : Obligations.AccelerationNeverLengthensTheDelay := by
  intro c keep s hlow hhigh
  refine ⟨_, exec_accel c keep s, ?_⟩
  rw [ch_after]
  exact accelCore_shortens keep (s.ch c) hlow hhigh

/-! ## DECEL (rules R106, R107 and R112) -/

/-- Settles O15: the index stays above the floor after falling by one exactly if it is at least two above it before,
and in every other case `decelCore` stops the motor. -/
theorem decelFollowsTheRecurrence : Obligations.DecelFollowsTheRecurrence := by
  intro c keep s
  refine ⟨encodedAs_fields rfl, ?_⟩
  rw [exec_decel]
  rcases decelCore_cases keep (s.ch c) with ⟨habove, hs, e⟩ | ⟨hnot, hs, e⟩ <;> rw [e, hs]
  · rw [if_pos (by omega)]
    rfl
  · rw [if_neg (by omega)]

/-! ## The virtual ramp (rule R108) -/

/-- Rule R108: the delay after `i` virtual steps from the delay `x`. -/
def virtualDelay (x : Nat) : Nat → Nat
  | 0 => x
  | i + 1 => accNext (virtualDelay x i) (i + 1)

/-- Rule R108: none of the three stop conditions holds at the virtual step `i` of the delays `d`. -/
def RampGoesOn (mincount maxcount : Nat) (d : Nat → Nat) (i : Nat) : Prop :=
  maxcount < d i ∧ d (i + 1) ≠ d i ∧ mincount ≤ d (i + 1)

theorem not_rampGoesOn_iff {mn mx i : Nat} {d : Nat → Nat} :
    ¬ RampGoesOn mn mx d i ↔ d i ≤ mx ∨ d (i + 1) = d i ∨ d (i + 1) < mn := by
  unfold RampGoesOn
  omega

/-- Rule R108, one iteration of the loop. -/
theorem vseedLoop_succ_cases (mn mx fuel x n : Nat) :
    (¬ RampGoesOn mn mx (virtualDelay x) n ∧
      vseedLoop mn mx (fuel + 1) (virtualDelay x n) n = (virtualDelay x n, n)) ∨
    (RampGoesOn mn mx (virtualDelay x) n ∧
      vseedLoop mn mx (fuel + 1) (virtualDelay x n) n = vseedLoop mn mx fuel (virtualDelay x (n + 1)) (n + 1)) := by
  rw [not_rampGoesOn_iff, vseedLoop]
  split_ifs with hband hstill hjump
  · exact .inl ⟨.inl hband, rfl⟩
  · exact .inl ⟨.inr (.inl hstill), rfl⟩
  · exact .inl ⟨.inr (.inr hjump), rfl⟩
  · exact .inr ⟨⟨not_le.1 hband, hstill, not_lt.1 hjump⟩, rfl⟩

/-- Rule R108: with fuel for the delay it starts from, the loop ends at the first virtual step at which a stop condition
holds. Each step that goes on shortens the delay, so the fuel lasts; at the delay 0 the first condition holds. -/
theorem exists_vseedLoop_eq (mn mx x fuel n : Nat) (hfuel : virtualDelay x n ≤ fuel) :
    ∃ m, vseedLoop mn mx fuel (virtualDelay x n) n = (virtualDelay x m, m) ∧
      (∀ i, n ≤ i → i < m → RampGoesOn mn mx (virtualDelay x) i) ∧ ¬ RampGoesOn mn mx (virtualDelay x) m := by
  induction fuel generalizing n with
  | zero => exact ⟨n, rfl, fun i hn hm => by omega, not_rampGoesOn_iff.2 (.inl (by omega))⟩
  | succ fuel ih =>
    rcases vseedLoop_succ_cases mn mx fuel x n with ⟨hstop, e⟩ | ⟨hgo, e⟩
    · exact ⟨n, e, fun i hn hm => by omega, hstop⟩
    · have ⟨_, hmoves, _⟩ := hgo
      have hshorter : virtualDelay x (n + 1) < virtualDelay x n := lt_of_le_of_ne (accNext_le _ _) hmoves
      obtain ⟨m, hm, hgoes, hstop⟩ := ih (n + 1) (by omega)
      refine ⟨m, e.trans hm, fun i hn him => ?_, hstop⟩
      rcases hn.eq_or_lt with rfl | hlt
      · exact hgo
      · exact hgoes i hlt him

/-- Settles O16: the sequence is `virtualDelay` from `ZEROCOUNT`, and the loop of the virtual ramp has `ZEROCOUNT` as
its fuel. -/
theorem virtualRampIsTheIteratedRecurrence : Obligations.VirtualRampIsTheIteratedRecurrence := by
  intro w we k
  obtain ⟨m, hm, hgoes, hstop⟩ :=
    exists_vseedLoop_eq k.mincount.toNat k.maxcount.toNat k.zerocount.toNat k.zerocount.toNat 0 le_rfl
  have hramp : k.virtualRamp = (virtualDelay k.zerocount.toNat m, m) := hm
  have hcount : k.virtualRamp.2 ≤ 0 + k.zerocount.toNat := vseedLoop_count_le _ _ _ _ _
  rw [Nat.zero_add, hramp] at hcount
  rw [hramp]
  exact ⟨virtualDelay k.zerocount.toNat, rfl, fun _ => rfl, rfl, fun i => hgoes i (Nat.zero_le i),
    not_rampGoesOn_iff.1 hstop, hcount⟩

end Machine

end Sys2Proof
end

section
/-!
The layer under the proofs about 41_motion_core.md: the comparator does not read the response, RUN is a recomputation
followed by SCHEDSTEP, and everything a poll can do in one case analysis.
-/

namespace Sys2Proof.Machine

variable {s t : State} {i : Instr} {c : Chan} {k k' o : Channel 32 64} {pre es : List (DriverEvent 2)} {r : Response}

/-! ## Whole next states in a row -/

theorem after_after (s : State) (c : Chan) (k k' : Channel 32 64) (es es' : List (DriverEvent 2)) (r r' : Response) :
    (s.after c k es r).after c k' es' r' = s.after c k' (es ++ es') r' :=
  Block.State.eq_of_ch c (by simp) (by simp) rfl rfl rfl (by simp) rfl

/-- A response given twice is given once. -/
theorem respond_self {b : Bool} {v : U32} (h : s.resp = some (.ok b v)) : s.respond b v = s := by
  change { s with resp := some (.ok b v) } = s
  rw [← h]

/-! ## The comparator does not read the response (rules R13 and R126) -/

section Respond

variable (s : State) (c : Chan) (b : Bool) (v : U32)

theorem respond_ite (p : Prop) [Decidable p] (s' : State) :
    (if p then s else s').respond b v = if p then s.respond b v else s'.respond b v :=
  apply_ite (fun x => Block.State.respond x b v) p s s'

theorem setCh_respond (k : Channel 32 64) : (s.respond b v).setCh c k = (s.setCh c k).respond b v := rfl

theorem driverEmit_respond (d : Dir) : driverEmit c d (s.respond b v) = (driverEmit c d s).respond b v := rfl

theorem syncSettle_respond : syncSettle c (s.respond b v) = (syncSettle c s).respond b v := by
  rw [syncSettle_eq_put, syncSettle_eq_put]
  rfl

theorem dueStep_respond : dueStep c (s.respond b v) = (dueStep c s).respond b v := rfl

theorem secondaryStep_respond (d : Dir) : secondaryStep c d (s.respond b v) = (secondaryStep c d s).respond b v := by
  rw [← other_other c, secondaryStep_eq_put, secondaryStep_eq_put]
  rfl

theorem syncOnPrimaryStep_respond : syncOnPrimaryStep c (s.respond b v) = (syncOnPrimaryStep c s).respond b v := by
  unfold syncOnPrimaryStep
  simp only [ch_respond, setCh_respond, secondaryStep_respond, driverEmit_respond, respond_ite]

theorem stepDue_respond : (s.respond b v).stepDue c = s.stepDue c := rfl

theorem schedStepCore_respond : schedStepCore c (s.respond b v) = (schedStepCore c s).respond b v := by
  unfold schedStepCore
  simp only [ch_respond, stepDue_respond, dueStep_respond, driverEmit_respond, syncSettle_respond,
    syncOnPrimaryStep_respond, respond_ite]

/-- Rule R127: a response that stands in the state is replaced. -/
theorem exec_schedstep_respond : exec (.schedstep c) (s.respond b v) = exec (.schedstep c) s := by
  change Host.Outcome.next ((schedStepCore c (s.respond b v)).respond false 0#32) = _
  rw [schedStepCore_respond]
  rfl

end Respond

/-! ## RUN (rule R125) -/

theorem exec_run_of_atRest (hx : (s.ch c).distance = 0#32) (hd : (s.ch c).direction = .none) :
    exec (.run c) s =
      .next (s.after c { s.ch c with compdue := true } (.emit c .none :: s.settleEvents c) (.ok true 0#32)) := by
  change execRun c s = _
  have hsettle : (s.put c { s.ch c with compdue := true } (s.ch (other c)) [.emit c .none]).settleEvents c =
      s.settleEvents c := by simp [Block.State.settleEvents]
  rw [execRun, if_pos ((atRest_iff _).2 ⟨hx, hd⟩)]
  simp only [setCh_eq_put s, driverEmit_eq_put, syncSettle_eq_put, put_put, respond_put, ch_put, ch_put_other,
    List.nil_append, hsettle]
  rfl

/-- Rule R125: away from rest RUN is the recomputation, if one is owed, followed by SCHEDSTEP. -/
theorem exec_run_of_not_atRest (h : ¬ ((s.ch c).distance = 0#32 ∧ (s.ch c).direction = .none)) :
    exec (.run c) s = exec (.schedstep c) (runRecompute c s) :=
  if_neg (mt (atRest_iff _).1 h)

theorem exec_run_of_compdue (h : ¬ ((s.ch c).distance = 0#32 ∧ (s.ch c).direction = .none))
    (hc : (s.ch c).compdue = true) :
    exec (.run c) s = exec (.schedstep c)
      (s.put c (recompute { s.ch c with active := true }) (s.ch (other c)) (s.enableEvents c)) := by
  rw [exec_run_of_not_atRest h, runRecompute_eq_put, if_pos hc]

theorem exec_run_of_not_compdue (h : ¬ ((s.ch c).distance = 0#32 ∧ (s.ch c).direction = .none))
    (hc : (s.ch c).compdue = false) : exec (.run c) s = exec (.schedstep c) s := by
  rw [exec_run_of_not_atRest h, runRecompute_eq_put, if_neg (Bool.eq_false_iff.1 hc)]

theorem exists_exec_run (c : Chan) (s : State) : ∃ t, exec (.run c) s = .next t := by
  by_cases h : (s.ch c).distance = 0#32 ∧ (s.ch c).direction = .none
  · exact ⟨_, exec_run_of_atRest h.1 h.2⟩
  · exact ⟨_, exec_run_of_not_atRest h⟩

/-! ## Everything a poll can do (rules R125 to R127) -/

/-- Rule R125: the registers of channel `c` a poll hands to the comparator, and the events produced by then. -/
inductive PollStart (s : State) (c : Chan) : Channel 32 64 → List (DriverEvent 2) → Prop
  | compares : PollStart s c (s.ch c) []
  | recomputes : PollStart s c (recompute { s.ch c with active := true }) (s.enableEvents c)

/-- Rules R125 to R127: a poll settles at rest with the answer `B = 1`, or goes through the comparator and answers
`B = 0`. -/
theorem poll_cases (hi : i = .run c ∨ i = .schedstep c) (hx : exec i s = .next t) :
    ((s.ch c).distance = 0#32 ∧ (s.ch c).direction = .none ∧
      t = s.after c { s.ch c with compdue := true } (.emit c .none :: s.settleEvents c) (.ok true 0#32)) ∨
    ∃ k pre k' o es, PollStart s c k pre ∧ PollEffect s c k pre k' o es ∧
      t = s.afterBoth c k' o es (.ok false 0#32) := by
  obtain ⟨k', o, es, r, rfl, h⟩ := exec_effect i s t hx
  rcases hi with rfl | rfl
  · cases h with
    | answer _ _ hr => exact absurd rfl hr
    | runAtRest _ hdist hdir => exact .inl ⟨hdist, hdir, rfl⟩
    | runRecomputes _ _ _ _ _ _ hp => exact .inr ⟨_, _, _, _, _, .recomputes, hp, rfl⟩
    | runCompares _ _ _ _ _ _ hp => exact .inr ⟨_, _, _, _, _, .compares, hp, rfl⟩
  · cases h with
    | answer _ _ _ hs => exact absurd rfl hs
    | schedstep _ _ _ _ hp => exact .inr ⟨_, _, _, _, _, .compares, hp, rfl⟩

/-! ## Distance and position (rules R126 and R137) -/

/-- Rule R137: where the position counter of a channel stands when its distance has run out, modulo `2^32`. -/
def Channel.target (k : Channel 32 64) : U32 := k.position + k.distance

/-- Rule R126: position and distance move by the same unit step in opposite directions. -/
@[simp] theorem target_move (k : Channel 32 64) : k.move.target = k.target := by
  simp only [Channel.target, Channel.move, wrapS, Int.sub_eq_add_neg, BitVec.ofInt_add, BitVec.ofInt_neg,
    BitVec.ofInt_toInt]
  ring

theorem target_recompute (k : Channel 32 64) : (recompute k).target = k.target := by
  obtain ⟨_, _, _, _, _, _, e⟩ := recompute_frame k
  rw [e]
  rfl

theorem PollEffect.target (h : PollEffect s c k pre k' o es) : k'.target = k.target := by
  cases h with
  | notDue => rfl
  | _ => exact target_move k

theorem PollStart.target (h : PollStart s c k pre) : k.target = (s.ch c).target := by
  cases h with
  | compares => rfl
  | recomputes => exact target_recompute _

theorem poll_keeps_target (hi : i = .run c ∨ i = .schedstep c) (hx : exec i s = .next t) :
    (t.ch c).target = (s.ch c).target := by
  rcases poll_cases hi hx with ⟨-, -, rfl⟩ | ⟨k, pre, k', o, es, hstart, h, rfl⟩
  · rw [ch_after]
    rfl
  · rw [ch_afterBoth, h.target, hstart.target]

end Sys2Proof.Machine
end

section
/-!
Proofs of the statements about 41_motion_core.md, section 2: the commands of the Motion Core as whole next states, with
their words, and RUN as the commands it is made of.
-/

namespace Sys2Proof.Machine

variable {s t : State} {c : Chan} {k : Channel 32 64}

/-! ## SETDIST (rule R124) -/

/-- Settles O18: on this platform the operand is the register value. -/
theorem setDistWritesOnlyDistance : Obligations.SetDistWritesOnlyDistance := by
  intro c steps s
  refine ⟨encodedAs_fields rfl, ?_⟩
  change execSetdist c steps s = _
  rw [execSetdist, signedOperand_platform, respond_setCh]

/-! ## The polls (rules R125 to R127) -/

/-- Settles O19: neither command has an operand. -/
theorem pollWordsCarryOnlyTheChannel : Obligations.PollWordsCarryOnlyTheChannel :=
  fun _ => ⟨encodedAs_fields rfl, encodedAs_fields rfl⟩

/-- Settles O20: `exec_run_of_atRest`. -/
theorem runAtRestOnlySettles : Obligations.RunAtRestOnlySettles :=
  fun _ _ hx hd => exec_run_of_atRest hx hd

/-- Rule R9: the direction of a distance that is not 0. -/
theorem ofUnit_sign_of_ne_zero {x : BitVec 32} (h : x ≠ 0#32) :
    Dir.ofUnit x.toInt.sign = if 0 < x.toInt then .counterClockwise else .clockwise := by
  have hne : x.toInt ≠ 0 := fun e => h (BitVec.toInt_inj.1 (e.trans BitVec.toInt_zero.symm))
  rcases lt_or_gt_of_ne hne with hneg | hpos
  · rw [Int.sign_eq_neg_one_of_neg hneg, if_neg hneg.not_gt]
    rfl
  · rw [Int.sign_eq_one_of_pos hpos, if_pos hpos]
    rfl

/-- Rule R125, second branch: the ramp is seeded and the direction taken from the distance. -/
theorem recompute_of_idle (hd : k.direction = .none) (hx : k.distance ≠ 0#32) :
    recompute k =
      { vseed k with direction := if 0 < k.distance.toInt then .counterClockwise else .clockwise } := by
  rw [← ofUnit_sign_of_ne_zero hx]
  exact if_pos hd

/-- Settles O21: away from rest RUN is the recomputation followed by SCHEDSTEP, and the recomputation of an idle channel
is the seed. -/
theorem runStartsAMoveThenCompares : Obligations.RunStartsAMoveThenCompares := by
  intro c s hc hd hx k seed
  have hseed := recompute_of_idle (k := { k with active := true }) hd hx
  refine ⟨_, exec_run_of_compdue (fun h => hx h.1) hc, ?_⟩
  rw [hseed]
  rfl

theorem exec_wakeup (c : Chan) (s : State) :
    exec (.wakeup c) s =
      .next (s.after c { s.ch c with active := true } (s.enableEvents c) (.ok false 0#32)) := by
  rw [Block.State.after, ← respond_put, ← wakeUp_eq_put]
  rfl

theorem keepsAccelerating_iff (k : Channel 32 64) :
    k.keepsAccelerating = true ↔
      k.distance.toInt.sign = k.direction.unit ∧
        (k.rampstep.toNat : Int) - k.rampfloor.toNat < k.distance.toInt.natAbs := by
  simp only [Channel.keepsAccelerating, Bool.and_eq_true, beq_iff_eq, decide_eq_true_eq]

/-- Rule R125, third and fourth branch: on a moving channel the recomputation is ACCEL or DECEL. -/
theorem exec_ramp_eq_recompute (c : Chan) (s : State) (hd : (s.ch c).direction ≠ .none) :
    ∃ b v, exec
      (if (s.ch c).distance.toInt.sign = (s.ch c).direction.unit ∧
          ((s.ch c).rampstep.toNat : Int) - (s.ch c).rampfloor.toNat < (s.ch c).distance.toInt.natAbs then
        .accel c false
      else .decel c false) s = .next (s.after c (recompute (s.ch c)) [] (.ok b v)) := by
  rcases recompute_cases (s.ch c) with ⟨hnone, _⟩ | ⟨_, ha, e⟩ | ⟨_, ha, e⟩
  · exact absurd hnone hd
  · rw [if_pos ((keepsAccelerating_iff _).1 ha), e]
    exact ⟨_, _, exec_accel c false s⟩
  · rw [if_neg (mt (keepsAccelerating_iff _).2 (Bool.eq_false_iff.1 ha)), e]
    exact ⟨_, _, exec_decel c false s⟩

/-- Settles O22: WAKEUP and the ramp command leave the registers and events RUN hands to the comparator, which does not
read their response. -/
theorem runOnAMovingMotorIsWakeRampCompare : Obligations.RunOnAMovingMotorIsWakeRampCompare := by
  intro c s hc hd k ramp
  obtain ⟨b, v, hramp⟩ :=
    exec_ramp_eq_recompute c (s.after c { k with active := true } (s.enableEvents c) (.ok false 0#32))
      (by rwa [ch_after])
  rw [ch_after, after_after, List.append_nil] at hramp
  refine ⟨_, _, _, exec_wakeup c s, hramp, ?_, exec_run_of_compdue (fun h => hd h.2) hc⟩
  exact exec_schedstep_respond _ c b v

/-- Settles O23: SCHEDSTEP always answers, and RUN is SCHEDSTEP here. -/
theorem runWithNothingOwedOnlyCompares : Obligations.RunWithNothingOwedOnlyCompares :=
  fun _ _ hc h => ⟨_, exec_run_of_not_compdue h hc, rfl⟩

/-- Settles O24: every other effect of the comparator needs the delay elapsed. -/
theorem schedStepBeforeTheDelaySettles : Obligations.SchedStepBeforeTheDelaySettles := by
  intro c s hlt
  obtain ⟨k, o, es, hx, h⟩ := exec_schedstep_effect c s
  rw [hx]
  cases h with
  | notDue => rfl
  | idle hdue | alone hdue | noTarget hdue | secondarySettles hdue | secondarySteps hdue =>
    exact absurd hdue (Nat.not_le.2 hlt)

/-- Rule R126 with `u = 0`: nothing moves. -/
theorem move_of_idle (h : k.direction = .none) : k.move = k := by
  have hdist : wrapS 32 (k.distance.toInt - Dir.none.unit) = k.distance := by
    rw [Dir.unit, Int.sub_zero, wrapS, BitVec.ofInt_toInt]
  have hpos : wrapS 32 (k.position.toInt + Dir.none.unit) = k.position := wrapS_add_unit k.position .none
  rw [Channel.move, h, hdist, hpos, ← h]

/-- Settles O25: of the effects of the comparator the one of a due poll without a direction. -/
theorem schedStepWhileIdleTakesTheTimestamp : Obligations.SchedStepWhileIdleTakesTheTimestamp := by
  intro c s hdue hd
  obtain ⟨k, o, es, hx, h⟩ := exec_schedstep_effect c s
  rw [hx]
  cases h with
  | notDue hlt => exact absurd hdue (Nat.not_le.2 hlt)
  | idle =>
    rw [move_of_idle hd]
    rfl
  | alone _ hd' | noTarget _ hd' | secondarySettles _ hd' | secondarySteps _ hd' => exact absurd hd hd'

/-- Settles O26: of the effects of the comparator the one of a due poll in a direction without a link. -/
theorem schedStepMovesOneStep : Obligations.SchedStepMovesOneStep := by
  intro c s hdue hd hlink k ccw
  obtain ⟨k', o, es, hx, h⟩ := exec_schedstep_effect c s
  rw [hx, ← roll_move_of_running k s.now hd]
  cases h with
  | notDue hlt => exact absurd hdue (Nat.not_le.2 hlt)
  | idle _ hd' => exact absurd hd' hd
  | alone => rfl
  | noTarget _ _ ha | secondarySettles _ _ ha | secondarySteps _ _ ha =>
    exact absurd (ha.symm.trans hlink) (by decide)

/-! ## RUNCONST (rule R128) -/

theorem exec_runconst_reserved (c : Chan) (s : State) :
    exec (.runconst c 0b10#2) s = .next (s.illegal .direction) := rfl

theorem exec_runconst_none (c : Chan) (s : State) :
    exec (.runconst c 0b00#2) s =
      .next (s.after c { s.ch c with jogdist := 0#32 } [.emit c .none] (.ok false 0#32)) := by
  change Host.Outcome.next
    (((driverEmit c .none s).setCh c { s.ch c with jogdist := 0#32 }).respond false 0#32) = _
  rw [driverEmit_eq_put, setCh_put, respond_put]
  rfl

/-- Rule R128: a jog answers the `JOGDIST` it leaves. -/
theorem exec_runconst_eq_jogPoll {d : BitVec 2} {e : Dir} (hd : Dir.ofCode d = some e) (he : e ≠ .none) (c : Chan)
    (s : State) :
    exec (.runconst c d) s = .next ((jogPoll c e s).respond false ((jogPoll c e s).ch c).jogdist) := by
  change execRunconst c d s = _
  rw [← signedWord_platform ((jogPoll c e s).ch c).jogdist, execRunconst, hd]
  cases e with
  | clockwise | counterClockwise => rfl
  | none => exact absurd rfl he

/-- Rule R128, a direction other than `None`, with `jog` for `JOGDIST` after a step. -/
theorem exec_runconst_jog {d : BitVec 2} {e : Dir} (hd : Dir.ofCode d = some e) (he : e ≠ .none) (c : Chan)
    (s : State) {jog : U32} (hjog : wrapS 32 ((s.ch c).jogdist.toInt + e.unit) = jog) :
    exec (.runconst c d) s =
      .next (
        if (s.ch c).maxcount.toNat < (s.now - (s.ch c).lastedge).toNat then
          s.after c { s.ch c with active := true, lastedge := s.now, jogdist := jog }
            (s.enableEvents c ++ [.emit c e]) (.ok false jog)
        else
          s.after c { s.ch c with active := true } (s.enableEvents c ++ [.emit c .none])
            (.ok false (s.ch c).jogdist)) := by
  rw [exec_runconst_eq_jogPoll hd he, ← hjog]
  rcases jogPoll_cases s c e with ⟨hdue, hput⟩ | ⟨hwait, hput⟩ <;> rw [hput, ch_put, respond_put]
  · rw [if_pos ((cadenceDue_iff s c).1 hdue)]
    rfl
  · rw [if_neg (mt (cadenceDue_iff s c).2 (Bool.eq_false_iff.1 hwait))]
    rfl

theorem code_cases (d : BitVec 2) : d = 0b00#2 ∨ d = 0b01#2 ∨ d = 0b10#2 ∨ d = 0b11#2 := by
  revert d
  decide

/-- Settles O28, one direction code at a time. -/
theorem runConstJogsAtTheFixedCadence : Obligations.RunConstJogsAtTheFixedCadence := by
  intro c d s k due dir jog
  refine ⟨fun hd => encodedAs_fields (bne_iff_ne.2 hd), ?_⟩
  rcases code_cases d with rfl | rfl | rfl | rfl
  · exact exec_runconst_none c s
  · exact exec_runconst_jog rfl (by decide) c s (wrapS_add_unit k.jogdist .counterClockwise)
  · exact exec_runconst_reserved c s
  · exact exec_runconst_jog rfl (by decide) c s (wrapS_add_unit k.jogdist .clockwise)

/-! ## Queries (rules R129 to R131) -/

/-- Settles O29: a query answers its flag and leaves the state otherwise as it was. -/
theorem queriesReturnTheirFlag : Obligations.QueriesReturnTheirFlag := by
  intro c s k
  refine ⟨encodedAs_fields rfl, ?_, encodedAs_fields rfl, congrArg _ (respond_eq_after s c k.isAtTarget 0#32),
    encodedAs_fields rfl, congrArg _ (respond_eq_after s c k.active 0#32)⟩
  rw [← Channel.isRunning_eq]
  exact congrArg _ (respond_eq_after s c k.isRunning 0#32)

/-! ## WAKEUP and RELEASE (rules R132 and R133) -/

theorem exec_wakeup_of_active (ha : (s.ch c).active = true) (hr : s.resp = some (.ok false 0#32)) :
    exec (.wakeup c) s = .next s := by
  change Host.Outcome.next ((wakeUp c s).respond false 0#32) = _
  rw [wakeUp, if_pos ha, respond_self hr]

/-- Settles O30: the second WAKEUP finds the driver enabled. -/
theorem wakeUpEnablesTheDriverOnce : Obligations.WakeUpEnablesTheDriverOnce := by
  intro c s
  refine ⟨encodedAs_fields rfl, exec_wakeup c s, _, exec_wakeup c s, exec_wakeup_of_active ?_ rfl⟩
  rw [ch_after]

theorem exec_release (c : Chan) (s : State) :
    exec (.release c) s =
      .next (s.after c { s.ch c with active := false } (if (s.ch c).active then [.disable c] else [])
        (.ok false 0#32)) := by
  rw [Block.State.after, ← respond_put, ← release_eq_put]
  rfl

theorem exec_release_of_not_active (ha : (s.ch c).active = false) (hr : s.resp = some (.ok false 0#32)) :
    exec (.release c) s = .next s := by
  change Host.Outcome.next ((release c s).respond false 0#32) = _
  rw [release, if_neg (Bool.eq_false_iff.1 ha), respond_self hr]

/-- Settles O31: the second RELEASE finds the driver disabled. -/
theorem releaseDisablesTheDriverOnce : Obligations.ReleaseDisablesTheDriverOnce := by
  intro c s
  refine ⟨encodedAs_fields rfl, exec_release c s, _, exec_release c s, exec_release_of_not_active ?_ rfl⟩
  rw [ch_after]

end Sys2Proof.Machine
end

section
/-!
Proofs of the statements about 41_motion_core.md, section 3: how often a step can come (rules R138 and R128, and R167
for homing), and that polls bring the position to its target (rule R137).
-/

namespace Sys2Proof.Machine

variable {s t : State} {i : Instr} {c : Chan} {k k' o : Channel 32 64} {pre es : List (DriverEvent 2)} {r : Response}

/-! ## Physical steps among the events (rule R12) -/

@[simp] theorem isStepOn_emit_none (c d : Chan) : DriverEvent.isStepOn c (.emit d .none) = false := Bool.and_false _

theorem any_isStepOn_enableEvents (s : State) (c d : Chan) :
    (s.enableEvents c).any (DriverEvent.isStepOn d) = false := by
  unfold Block.State.enableEvents
  split <;> rfl

/-- Rule R154: settle pulses are no steps. -/
theorem any_isStepOn_settle (c d : Chan) (l : Bool) :
    (DriverEvent.emit d .none :: (if l then [.emit (other d) .none] else [])).any (DriverEvent.isStepOn c) = false := by
  cases l <;> simp

/-! ## The cadence of polls (rules R126 and R138) -/

/-- Rule R126: a poll steps only when the delay has elapsed in a direction, and takes the timestamp. -/
theorem PollEffect.due_of_step (h : PollEffect s c k pre k' o es) (hpre : pre.any (DriverEvent.isStepOn c) = false)
    (hstep : es.any (DriverEvent.isStepOn c) = true) :
    k.direction ≠ .none ∧ k.curcount.toNat ≤ (s.now - k.lastedge).toNat ∧ k'.lastedge = s.now := by
  cases h with
  | notDue | idle =>
    rw [List.any_append, hpre, any_isStepOn_settle] at hstep
    exact absurd hstep (by decide)
  | alone h hd | noTarget h hd | secondarySettles h hd | secondarySteps h hd => exact ⟨hd, h, rfl⟩

theorem PollStart.no_step (h : PollStart s c k pre) : pre.any (DriverEvent.isStepOn c) = false := by
  cases h with
  | compares => rfl
  | recomputes => exact any_isStepOn_enableEvents s c c

/-- Rule R125: a recomputation keeps the bound and the timestamp, and clamps the delays to the band. -/
theorem PollStart.pace (h : PollStart s c k pre) (hle : (s.ch c).mincount.toNat ≤ (s.ch c).maxcount.toNat)
    (hband : (s.ch c).BandWhileRunning) :
    k.mincount = (s.ch c).mincount ∧ k.lastedge = (s.ch c).lastedge ∧ k.BandWhileRunning := by
  cases h with
  | compares => exact ⟨rfl, rfl, hband⟩
  | recomputes =>
    have hrec := bandWhileRunning_recompute (k := { s.ch c with active := true }) hle hband
    obtain ⟨_, _, _, _, _, _, e⟩ := recompute_frame { s.ch c with active := true }
    exact ⟨by rw [e], by rw [e], hrec⟩

/-- Settles O53: a poll that steps found `CURCOUNT` elapsed, which lies in the band above `MINCOUNT`. -/
theorem pollNeverStepsFasterThanMaximumVelocity : Obligations.PollNeverStepsFasterThanMaximumVelocity := by
  intro c i s t hi hinv hband hx es hes hstep
  obtain ⟨hconfig, hcounts, -⟩ := hinv c
  have hle := (minCountIsAtMostMaxCount _ hconfig hcounts).2
  rcases poll_cases hi hx with ⟨-, -, rfl⟩ | ⟨k, pre, k', o, es', hstart, h, rfl⟩
  · obtain rfl := List.append_cancel_left hes
    rw [Block.State.settleEvents, any_isStepOn_settle] at hstep
    exact absurd hstep (by decide)
  · obtain rfl := List.append_cancel_left hes
    obtain ⟨hdir, hdue, hedge⟩ := h.due_of_step hstart.no_step hstep
    obtain ⟨hmin, hlast, hk⟩ := hstart.pace hle hband
    rw [hlast] at hdue
    rw [← hmin, ch_afterBoth]
    exact ⟨(hk hdir).1.trans hdue, hedge⟩

/-! ## The cadence of jogging and homing (rules R128 and R167) -/

/-- Rules R128 and R167: a wake and a settle pulse are no steps. -/
theorem any_isStepOn_wake (s : State) (c : Chan) :
    (s.enableEvents c ++ [DriverEvent.emit c .none]).any (DriverEvent.isStepOn c) = false := by
  rw [List.any_append, any_isStepOn_enableEvents]
  simp

theorem Effect.cadence_of_jogStep {d : BitVec 2} (h : Effect s (.runconst c d) k o es r)
    (hstep : es.any (DriverEvent.isStepOn c) = true) :
    (s.ch c).maxcount.toNat < (s.now - (s.ch c).lastedge).toNat ∧ k.lastedge = s.now := by
  cases h with
  | answer => exact absurd hstep Bool.false_ne_true
  | jogStops => exact absurd hstep (by simp)
  | jogSteps _ _ _ _ _ hdue => exact ⟨hdue, rfl⟩
  | jogWaits => exact absurd hstep (by rw [any_isStepOn_wake]; decide)

theorem Effect.cadence_of_homeStep (h : Effect s (.referencing c) k o es r) (hfirst : (s.ch c).hfirst = false)
    (hstep : es.any (DriverEvent.isStepOn c) = true) :
    (s.ch c).maxcount.toNat < (s.now - (s.ch c).lastedge).toNat ∧ k.lastedge = s.now := by
  cases h with
  | answer => exact absurd hstep Bool.false_ne_true
  | homeFound | homeWaits => exact absurd hstep (by rw [any_isStepOn_wake]; decide)
  | homeSteps _ _ _ hdue => exact ⟨hdue.resolve_left (Bool.eq_false_iff.1 hfirst), rfl⟩

/-- Settles O54: only the step arms of REFERENCING and RUNCONST emit a step, and with `HFIRST = 0` both wait for the
constant cadence. -/
theorem homingAndJoggingKeepTheSlowestCadence : Obligations.HomingAndJoggingKeepTheSlowestCadence := by
  intro c i s t hi hx es hes hstep
  obtain ⟨k, o, es', r, rfl, h⟩ := exec_effect i s t hx
  obtain rfl := List.append_cancel_left hes
  rcases hi with ⟨rfl, hfirst⟩ | ⟨d, rfl⟩ <;> rw [Instr.chan, ch_afterBoth]
  · exact h.cadence_of_homeStep hfirst hstep
  · exact h.cadence_of_jogStep hstep

/-! ## Target convergence (rule R137) -/

/-- Settles O55: the sum is `Channel.target`, which neither the recomputation nor the comparator changes. -/
theorem pollsConserveDistancePlusPosition : Obligations.PollsConserveDistancePlusPosition :=
  fun _ _ _ _ hi hx => poll_keeps_target hi hx

/-- Rule R125: the answer `B = 1` in the state says that channel `c` is at rest. -/
def AnswersAtRest (c : Chan) (s : State) : Prop :=
  s.resp = some (.ok true 0#32) → (s.ch c).distance = 0#32 ∧ (s.ch c).direction = .none

theorem exec_run_answersAtRest (hx : exec (.run c) s = .next t) : AnswersAtRest c t := by
  rcases poll_cases (.inl rfl) hx with ⟨hdist, hdir, rfl⟩ | ⟨k, pre, k', o, es, -, -, rfl⟩
  · intro _
    rw [ch_after]
    exact ⟨hdist, hdir⟩
  · exact fun hr => absurd hr (by rw [resp_afterBoth]; decide)

/-- Only RUN commands of channel `c` stand before the block, the sum of its position and its distance is `target`, and
an answer `B = 1` holds what it says. -/
structure PolledToward (c : Chan) (target : U32) (s : State) : Prop where
  presents : s.PresentsOnly [.run c]
  target_eq : (s.ch c).target = target
  answers : AnswersAtRest c s

/-- A step of a block that is only polled runs one poll, or nothing; so it establishes `PolledToward` for the sum it
starts with. -/
theorem step_polled (c : Chan) (s : State) (h : s.PresentsOnly [.run c]) :
    ∃ t, step s = .next t ∧ PolledToward c (s.ch c).target t := by
  cases hs : s.inputs with
  | nil => exact ⟨_, step_of_inputs_nil hs, h, rfl, fun hr => absurd hr (by rw [resp_idle]; decide)⟩
  | cons x rest =>
    unfold Block.State.PresentsOnly at h
    rw [hs, List.forall_mem_cons] at h
    obtain ⟨⟨p, rfl, i, hi, hp⟩, hrest⟩ := h
    obtain rfl := List.mem_singleton.1 hi
    obtain ⟨t, hx⟩ := exists_exec_run c (s.sample p rest)
    have htarget : (t.ch c).target = ((s.sample p rest).ch c).target := poll_keeps_target (.inl rfl) hx
    refine ⟨t, (step_of_decode_ok hs hp).trans hx, ?_, htarget, exec_run_answersAtRest hx⟩
    obtain ⟨k, o, es, r, rfl, -⟩ := exec_effect _ _ _ hx
    exact hrest

theorem runTrace_succ {n : Nat} (h : step s = .next t) : (s.runTrace (n + 1)).2 = (t.runTrace n).2 := by
  rw [Block.State.runTrace, h]

/-- What every step from a state with `P` completes and keeps holds after any number of steps. -/
theorem runTrace_keeps {P : State → Prop} (hstep : ∀ s, P s → ∃ t, step s = .next t ∧ P t) (n : Nat) (hs : P s) :
    P (s.runTrace n).2 := by
  induction n generalizing s with
  | zero => exact hs
  | succ n ih =>
    obtain ⟨t, hst, ht⟩ := hstep s hs
    rw [runTrace_succ hst]
    exact ih ht

/-- Settles O56: the first step establishes `PolledToward`, every later step keeps it, and at rest the position is the
sum. -/
theorem runReturningTrueHasMovedByTheDistance : Obligations.RunReturningTrueHasMovedByTheDistance := by
  intro c s n hs hn t hr
  obtain ⟨n, rfl⟩ := Nat.exists_eq_succ_of_ne_zero hn.ne'
  obtain ⟨u, hsu, hu⟩ := step_polled c s hs
  have keeps (v : State) (hv : PolledToward c (s.ch c).target v) :
      ∃ v', step v = .next v' ∧ PolledToward c (s.ch c).target v' := by
    rw [← hv.target_eq]
    exact step_polled c v hv.presents
  have ht : PolledToward c (s.ch c).target (s.runTrace (n + 1)).2 := by
    rw [runTrace_succ hsu]
    exact runTrace_keeps keeps n hu
  obtain ⟨hdist, hdir⟩ := ht.answers hr
  have hsum : (t.ch c).position + (t.ch c).distance = (s.ch c).target := ht.target_eq
  rw [hdist, BitVec.add_zero] at hsum
  exact ⟨hsum, hdist, hdir⟩

end Sys2Proof.Machine
end

section
/-!
Proofs of the statements about 42_sync_engine.md, sections 2 and 3: SYNC and ENDSYNC as whole next states (rules R151
and R152), and the events of a linked poll (rules R153 and R154).
-/

namespace Sys2Proof.Machine

variable {s t : State} {i : Instr} {c : Chan} {k k' o : Channel 32 64} {pre es : List (DriverEvent 2)}

/-! ## SYNC and ENDSYNC (rules R151 and R152) -/

theorem exec_sync (c : Chan) (target : S32) (s : State) :
    exec (.sync c target) s =
      .next (s.after c (linkAttach (s.ch (other c)).position target (s.ch c)) [] (.ok false 0#32)) := by
  change execSync c target s = _
  rw [execSync, signedOperand_platform, respond_setCh]

theorem exec_endsync (c : Chan) (s : State) :
    exec (.endsync c) s = .next (s.after c { s.ch c with linkAttached := false } [] (.ok false 0#32)) :=
  congrArg _ (respond_setCh s c _ false 0#32)

/-- Rule R9: the direction of the sign of a number. -/
theorem ofUnit_sign (x : Int) :
    Dir.ofUnit x.sign = if 0 < x then .counterClockwise else if x < 0 then .clockwise else .none := by
  rcases lt_trichotomy x 0 with h | rfl | h
  · rw [Int.sign_eq_neg_one_of_neg h, if_neg h.not_gt, if_pos h]
    rfl
  · rfl
  · rw [Int.sign_eq_one_of_pos h, if_pos h]
    rfl

/-- Rule R8: a `u32` register holds a magnitude below `2^32` exactly. -/
theorem toNat_ofNat_natAbs {x : Int} (h : x.natAbs < 2 ^ 32) :
    ((BitVec.ofNat 32 x.natAbs).toNat : Int) = |x| := by
  rw [BitVec.toNat_ofNat, Nat.mod_eq_of_lt h, Int.natCast_natAbs]

/-- Settles O32: no register SYNC writes is too narrow for the number it gets. -/
theorem syncAttachesTheLink : Obligations.SyncAttachesTheLink := by
  intro c target s k diff
  have hdist : k.distance.toInt.natAbs ≤ 2 ^ 31 := by
    have hd := k.distance.le_toInt
    have hd' := k.distance.toInt_lt
    omega
  have hdiff : diff.natAbs < 2 ^ 32 := by
    have ht := target.le_toInt
    have ht' := target.toInt_lt
    have hp := (s.ch (other c)).position.le_toInt
    have hp' := (s.ch (other c)).position.toInt_lt
    omega
  have hmajor := toNat_ofNat_natAbs (hdist.trans_lt (by decide))
  have herr : (BitVec.ofNat 64 (k.distance.toInt.natAbs / 2)).toInt = (k.distance.toInt.natAbs / 2 : Nat) := by
    rw [← BitVec.ofInt_natCast]
    exact toInt_wrapS64 _ (by omega) (by omega)
  refine ⟨encodedAs_fields rfl, _, _, _, hmajor, toNat_ofNat_natAbs hdiff, herr.trans ?_, ?_⟩
  · rw [hmajor, Int.natCast_ediv, Int.natCast_natAbs]
    rfl
  · rw [exec_sync, ← ofUnit_sign]
    rfl

/-- Settles O33: one bit of the link is written, and ENDSYNC has no operand. -/
theorem endSyncOnlyDetaches : Obligations.EndSyncOnlyDetaches :=
  fun c s => ⟨encodedAs_fields rfl, exec_endsync c s⟩

/-! ## The events of a linked poll (rules R153 and R154) -/

theorem enableEvents_cases (s : State) (c : Chan) : s.enableEvents c = [] ∨ s.enableEvents c = [.enable c] := by
  unfold Block.State.enableEvents
  split
  · exact .inl rfl
  · exact .inr rfl

theorem PollStart.events_cases (h : PollStart s c k pre) : pre = [] ∨ pre = [.enable c] := by
  cases h with
  | compares => exact .inl rfl
  | recomputes => exact enableEvents_cases s c

theorem PollStart.linkAttached (h : PollStart s c k pre) : k.linkAttached = (s.ch c).linkAttached := by
  cases h with
  | compares => rfl
  | recomputes => exact recompute_linkAttached _

/-- Rules R153 and R154: with a link the comparator emits on the primary's port, then on the secondary's. -/
theorem PollEffect.events_of_linked (h : PollEffect s c k pre k' o es) (ha : k.linkAttached = true) :
    ∃ (d d' : Dir) (b : List (DriverEvent 2)),
      es = pre ++ [DriverEvent.emit c d] ++ b ++ [DriverEvent.emit (other c) d'] ∧
        (b = [] ∨ b = [.enable (other c)]) := by
  cases h with
  | notDue | idle =>
    refine ⟨.none, .none, [], ?_, .inl rfl⟩
    rw [if_pos ha, List.append_nil, List.append_assoc]
    rfl
  | alone _ _ hfree => exact absurd (ha.symm.trans hfree) (by decide)
  | noTarget | secondarySettles => exact ⟨k.direction, .none, [], by rw [List.append_nil], .inl rfl⟩
  | secondarySteps =>
    exact ⟨k.direction, k.linkSign, _, (List.append_assoc _ _ _).symm, enableEvents_cases s (other c)⟩

/-- Settles O52: a poll at rest settles both ports; any other goes through the comparator, after at most an ENABLE. -/
theorem linkedPollServesBothPortsOnce : Obligations.LinkedPollServesBothPortsOnce := by
  intro c i s t hi ha hx
  rcases poll_cases hi hx with ⟨-, -, rfl⟩ | ⟨k, pre, k', o, es, hstart, h, rfl⟩
  · refine ⟨.none, .none, [], [], ?_, .inl rfl, .inl rfl⟩
    rw [events_after, Block.State.settleEvents, if_pos ha, List.append_nil, List.append_nil, List.append_assoc]
    rfl
  · obtain ⟨d, d', b, rfl, hb⟩ := h.events_of_linked (hstart.linkAttached.trans ha)
    refine ⟨d, d', pre, b, ?_, hstart.events_cases, hb⟩
    simp only [events_afterBoth, List.append_assoc]

end Sys2Proof.Machine
end

section
/-!
Proof of the statement about 42_sync_engine.md, section 4 (rule R157): the link accumulator is the error term of a
Bresenham line, so the two step counts follow the line of slope `LINK_MINOR / LINK_MAJOR`.
-/

namespace Sys2Proof.Machine

variable {s t : State} {i : Instr} {c : Chan} {k k' o o' k₀ : Channel 32 64} {pre es : List (DriverEvent 2)}
  {start : U32} {p q : Nat}

/-! ## Counting physical steps (rule R12) -/

/-- The number of physical steps on channel `c` among the events. -/
def stepsOn (c : Chan) (es : List (DriverEvent 2)) : Nat := es.countP (DriverEvent.isStepOn c)

@[simp] theorem stepsOn_append (c : Chan) (es es' : List (DriverEvent 2)) :
    stepsOn c (es ++ es') = stepsOn c es + stepsOn c es' := List.countP_append

theorem stepsOn_eq_zero (h : es.any (DriverEvent.isStepOn c) = false) : stepsOn c es = 0 :=
  List.countP_eq_zero.2 (List.any_eq_false.1 h)

@[simp] theorem stepsOn_enableEvents (s : State) (c d : Chan) : stepsOn d (s.enableEvents c) = 0 :=
  stepsOn_eq_zero (any_isStepOn_enableEvents s c d)

@[simp] theorem stepsOn_settle (c d : Chan) (l : Bool) :
    stepsOn d (.emit c .none :: (if l then [.emit (other c) .none] else [])) = 0 :=
  stepsOn_eq_zero (any_isStepOn_settle d c l)

@[simp] theorem stepsOn_emit_none (c d : Chan) : stepsOn d [.emit c .none] = 0 :=
  stepsOn_eq_zero (by simp)

theorem stepsOn_emit_self {d : Dir} (h : d ≠ .none) (c : Chan) : stepsOn c [.emit c d] = 1 := by
  simp [stepsOn, DriverEvent.isStepOn, h]

theorem stepsOn_emit_ne {c c' : Chan} (h : c ≠ c') (d : Dir) : stepsOn c' [.emit c d] = 0 := by
  simp [stepsOn, DriverEvent.isStepOn, h]

theorem PollStart.stepsOn_eq_zero (h : PollStart s c k pre) (d : Chan) : stepsOn d pre = 0 := by
  cases h with
  | compares => rfl
  | recomputes => exact stepsOn_enableEvents s c d

/-! ## The line of a link (rule R157) -/

/-- The link registers that stay while the link drives the secondary. -/
def Channel.link (k : Channel 32 64) : Bool × U32 × U32 × Dir :=
  (k.linkAttached, k.linkMajor, k.linkMinor, k.linkSign)

theorem link_eq_iff : k'.link = k.link ↔
    k'.linkAttached = k.linkAttached ∧ k'.linkMajor = k.linkMajor ∧ k'.linkMinor = k.linkMinor ∧
      k'.linkSign = k.linkSign := by
  simp only [Channel.link, Prod.mk.injEq]

theorem PollEffect.link (h : PollEffect s c k pre k' o es) : k'.link = k.link := by
  obtain ⟨_, _, _, _, _, _, rfl⟩ := h.frame
  rfl

theorem PollStart.link (h : PollStart s c k pre) : k.link = (s.ch c).link ∧ k.linkErr = (s.ch c).linkErr := by
  cases h with
  | compares => exact ⟨rfl, rfl⟩
  | recomputes =>
    obtain ⟨_, _, _, _, _, _, e⟩ := recompute_frame { s.ch c with active := true }
    rw [e]
    exact ⟨rfl, rfl⟩

/-- Rule R157: an attached link with `LINK_MINOR <= LINK_MAJOR`, and a direction if there is a step to take. -/
structure Channel.Rasterizes (k : Channel 32 64) : Prop where
  attached : k.linkAttached = true
  minor_le : k.linkMinor.toNat ≤ k.linkMajor.toNat
  minor_eq_zero : k.linkSign = .none → k.linkMinor.toNat = 0

theorem Channel.Rasterizes.of_link_eq (h : k₀.Rasterizes) (e : k.link = k₀.link) : k.Rasterizes := by
  obtain ⟨hattached, hmajor, hminor, hsign⟩ := link_eq_iff.1 e
  refine ⟨hattached.trans h.attached, ?_, ?_⟩
  · rw [hmajor, hminor]
    exact h.minor_le
  · rw [hsign, hminor]
    exact h.minor_eq_zero

/-- Rules R153 and R157: the registers `k` of the primary and `o` of the secondary after `p` steps of the primary and
`q` of the secondary, which stood at `start`. The accumulator is the error term of the line, within one step. -/
structure OnLine (start : U32) (p q : Nat) (k o : Channel 32 64) : Prop where
  err_nonneg : 0 ≤ k.linkErr.toInt
  err_lt : k.linkErr.toInt < k.linkMajor.toNat
  balance : k.linkErr.toInt + (p * k.linkMinor.toNat : Nat) =
    (k.linkMajor.toNat / 2 : Nat) + (q * k.linkMajor.toNat : Nat)
  position : o.position = BitVec.ofInt 32 (start.toInt + k.linkSign.unit * q)

/-- The line reads the link registers of the primary and the position of the secondary. -/
theorem OnLine.congr (h : OnLine start p q k o) (hlink : k'.link = k.link) (herr : k'.linkErr = k.linkErr)
    (hpos : o'.position = o.position) : OnLine start p q k' o' := by
  obtain ⟨-, hmajor, hminor, hsign⟩ := link_eq_iff.1 hlink
  constructor
  · rw [herr]
    exact h.err_nonneg
  · rw [herr, hmajor]
    exact h.err_lt
  · rw [herr, hmajor, hminor]
    exact h.balance
  · rw [hpos, hsign]
    exact h.position

theorem OnLine.major_pos (h : OnLine start p q k o) : 0 < k.linkMajor.toNat :=
  Int.natCast_pos.1 (h.err_nonneg.trans_lt h.err_lt)

/-- Rule R153: below `LINK_MAJOR` the accumulator less `LINK_MINOR` does not wrap. -/
theorem OnLine.toInt_linkErrLess (h : OnLine start p q k o) :
    k.linkErrLess.toInt = k.linkErr.toInt - k.linkMinor.toNat := by
  have hlow := h.err_nonneg
  have hhigh := h.err_lt
  exact toInt_wrapS64 _ (by omega) (by omega)

/-- Rule R153: a primary step that leaves the accumulator at or above 0. -/
theorem OnLine.primary_step (h : OnLine start p q k o) (he : 0 ≤ k.linkErrLess.toInt) :
    OnLine start (p + 1) q { k with linkErr := k.linkErrLess } o := by
  have hless := h.toInt_linkErrLess
  obtain ⟨hlow, hhigh, hbalance, hposition⟩ := h
  constructor
  · exact he
  · change k.linkErrLess.toInt < k.linkMajor.toNat
    omega
  · change k.linkErrLess.toInt + ((p + 1) * k.linkMinor.toNat : Nat) = _
    rw [Nat.succ_mul]
    dsimp only
    omega
  · exact hposition

/-- Rule R153: a primary step that takes the accumulator below 0 and carries a secondary step. -/
theorem OnLine.both_step (h : OnLine start p q k o) (hle : k.linkMinor.toNat ≤ k.linkMajor.toNat)
    (he : k.linkErrLess.toInt < 0) :
    OnLine start (p + 1) (q + 1) { k with linkErr := wrapS 64 (k.linkErrLess.toInt + k.linkMajor.toNat) }
      { o with active := true, position := wrapS 32 (o.position.toInt + k.linkSign.unit) } := by
  have hless := h.toInt_linkErrLess
  obtain ⟨hlow, hhigh, hbalance, hposition⟩ := h
  have herr : (wrapS 64 (k.linkErrLess.toInt + k.linkMajor.toNat)).toInt = k.linkErrLess.toInt + k.linkMajor.toNat :=
    toInt_wrapS64 _ (by omega) (by omega)
  constructor
  · rw [herr]
    omega
  · rw [herr]
    dsimp only
    omega
  · rw [herr, Nat.succ_mul, Nat.succ_mul]
    dsimp only
    omega
  · change wrapS 32 (o.position.toInt + k.linkSign.unit) = _
    rw [wrapS, BitVec.ofInt_add, BitVec.ofInt_toInt, hposition, ← BitVec.ofInt_add, Nat.cast_succ, mul_add_one,
      ← add_assoc]

/-- Rule R157: on the line the secondary has taken `ceil((p LINK_MINOR - floor(LINK_MAJOR / 2)) / LINK_MAJOR)` steps. -/
theorem OnLine.secondary_steps (h : OnLine start p q k o) :
    q = (p * k.linkMinor.toNat + (k.linkMajor.toNat - 1 - k.linkMajor.toNat / 2)) / k.linkMajor.toNat := by
  obtain ⟨hlow, hhigh, hbalance, -⟩ := h
  refine (Nat.div_eq_of_lt_le ?_ ?_).symm
  · omega
  · rw [Nat.succ_mul]
    omega

/-- Rule R157: after `LINK_MAJOR` steps of the primary the error term is what it was at the start. -/
theorem OnLine.after_major (h : OnLine start p q k o) (hp : p = k.linkMajor.toNat) :
    q = k.linkMinor.toNat ∧ k.linkErr.toInt = (k.linkMajor.toNat / 2 : Nat) := by
  have hpos := h.major_pos
  have hq : q = k.linkMinor.toNat := by
    rw [h.secondary_steps, hp, Nat.mul_add_div hpos, Nat.div_eq_of_lt (by omega), Nat.add_zero]
  have hbalance := h.balance
  rw [hp, hq, Nat.mul_comm k.linkMajor.toNat] at hbalance
  exact ⟨hq, by omega⟩

/-! ## A poll keeps to the line (rules R153 and R154) -/

theorem PollEffect.onLine (h : PollEffect s c k pre k' o es) (hk : k.Rasterizes)
    (hline : OnLine start p q k (s.ch (other c))) (hpre : ∀ d, stepsOn d pre = 0) :
    OnLine start (p + stepsOn c es) (q + stepsOn (other c) es) k' o := by
  cases h with
  | notDue | idle =>
    simp only [stepsOn_append, hpre, stepsOn_settle]
    exact hline.congr rfl rfl rfl
  | alone _ _ hfree => exact absurd (hk.attached.symm.trans hfree) (by decide)
  | noTarget _ _ _ hmajor => exact absurd (congrArg BitVec.toNat hmajor) hline.major_pos.ne'
  | secondarySettles _ hdir _ _ he =>
    simp only [stepsOn_append, hpre, stepsOn_emit_self hdir, stepsOn_emit_ne (ne_other c), stepsOn_emit_none]
    exact (hline.primary_step he).congr rfl rfl rfl
  | secondarySteps _ hdir _ _ he =>
    have hsign : k.linkSign ≠ .none := by
      intro hnone
      have hless := hline.toInt_linkErrLess
      have hlow := hline.err_nonneg
      have hminor := hk.minor_eq_zero hnone
      omega
    simp only [stepsOn_append, hpre, stepsOn_emit_self hdir, stepsOn_emit_ne (ne_other c), stepsOn_enableEvents,
      stepsOn_emit_self hsign, stepsOn_emit_ne (other_ne c)]
    exact (hline.both_step hk.minor_le he).congr rfl rfl rfl

theorem poll_keeps_line (hi : i = .run c ∨ i = .schedstep c) (hx : exec i s = .next t) (hs : s.events = [])
    (hk : (s.ch c).Rasterizes) (hline : OnLine start p q (s.ch c) (s.ch (other c))) :
    (t.ch c).link = (s.ch c).link ∧
      OnLine start (p + stepsOn c t.events) (q + stepsOn (other c) t.events) (t.ch c) (t.ch (other c)) := by
  rcases poll_cases hi hx with ⟨-, -, rfl⟩ | ⟨k, pre, k', o, es, hstart, h, rfl⟩
  · rw [ch_after, ch_after_other, events_after, hs, List.nil_append, Block.State.settleEvents, stepsOn_settle,
      stepsOn_settle]
    exact ⟨rfl, hline.congr rfl rfl rfl⟩
  · obtain ⟨hlink, herr⟩ := hstart.link
    rw [ch_afterBoth, ch_afterBoth_other, events_afterBoth, hs, List.nil_append]
    exact ⟨h.link.trans hlink, h.onLine (hk.of_link_eq hlink) (hline.congr hlink herr rfl) hstart.stepsOn_eq_zero⟩

/-! ## Runs of polls -/

/-- A step of a block to which only some commands are presented does nothing, or runs one of them. -/
theorem step_of_presentsOnly {cmds : List Instr} (h : s.PresentsOnly cmds) :
    step s = .next s.idle ∨
      ∃ p rest, ∃ i ∈ cmds, step s = exec i (s.sample p rest) ∧ (s.sample p rest).PresentsOnly cmds := by
  cases hs : s.inputs with
  | nil => exact .inl (step_of_inputs_nil hs)
  | cons x rest =>
    unfold Block.State.PresentsOnly at h
    rw [hs, List.forall_mem_cons] at h
    obtain ⟨⟨p, rfl, i, hi, hp⟩, hrest⟩ := h
    exact .inr ⟨p, rest, i, hi, step_of_decode_ok hs hp, hrest⟩

theorem exec_keeps_presentsOnly {cmds : List Instr} (hx : exec i s = .next t) (h : s.PresentsOnly cmds) :
    t.PresentsOnly cmds := by
  obtain ⟨k, o, es, r, rfl, -⟩ := exec_effect i s t hx
  exact h

theorem exists_exec_poll (hi : i = .run c ∨ i = .schedstep c) (s : State) : ∃ t, exec i s = .next t := by
  rcases hi with rfl | rfl
  · exact exists_exec_run c s
  · exact ⟨_, rfl⟩

/-- Only polls of the primary `c` stand before the block, its link is that of `k₀`, and the two channels are on the
line after `p` and `q` steps. -/
structure LinkRun (c : Chan) (k₀ : Channel 32 64) (start : U32) (p q : Nat) (s : State) : Prop where
  presents : s.PresentsOnly [.run c, .schedstep c]
  link : (s.ch c).link = k₀.link
  line : OnLine start p q (s.ch c) (s.ch (other c))

theorem LinkRun.exists_step (hk : k₀.Rasterizes) (h : LinkRun c k₀ start p q s) :
    ∃ t, step s = .next t ∧
      LinkRun c k₀ start (p + stepsOn c t.events) (q + stepsOn (other c) t.events) t := by
  obtain ⟨hpresents, hlink, hline⟩ := h
  rcases step_of_presentsOnly hpresents with hidle | ⟨command, rest, i, hi, hrun, hrest⟩
  · exact ⟨_, hidle, hpresents, hlink, hline⟩
  · have hpoll : i = .run c ∨ i = .schedstep c := by simpa using hi
    obtain ⟨t, hx⟩ := exists_exec_poll hpoll (s.sample command rest)
    obtain ⟨hlink', hline'⟩ := poll_keeps_line hpoll hx rfl (hk.of_link_eq hlink) hline
    exact ⟨t, hrun.trans hx, exec_keeps_presentsOnly hx hrest, hlink'.trans hlink, hline'⟩

theorem runTrace_events_succ {n : Nat} (h : step s = .next t) :
    (s.runTrace (n + 1)).1 = t.events ++ (t.runTrace n).1 := by
  rw [Block.State.runTrace, h]

theorem LinkRun.after_runTrace (hk : k₀.Rasterizes) (n : Nat) (h : LinkRun c k₀ start p q s) :
    LinkRun c k₀ start (p + stepsOn c (s.runTrace n).1) (q + stepsOn (other c) (s.runTrace n).1)
      (s.runTrace n).2 := by
  induction n generalizing s p q with
  | zero => exact h
  | succ n ih =>
    obtain ⟨t, hst, ht⟩ := h.exists_step hk
    rw [runTrace_events_succ hst, runTrace_succ hst, stepsOn_append, stepsOn_append, ← add_assoc, ← add_assoc]
    exact ih ht

/-- Settles O57: a fresh link is on the line after no step, a run of polls stays on it, and the line fixes the number of
secondary steps. -/
theorem linkKeepsTheRasterizationRatio : Obligations.LinkKeepsTheRasterizationRatio := by
  intro c s n hs k major minor hattached hpos hle hsign herr es t p q
  have hk : k.Rasterizes := ⟨hattached, hle, hsign.1⟩
  have hstart : LinkRun c k (s.ch (other c)).position 0 0 s := by
    refine ⟨hs, rfl, ?_, ?_, ?_, ?_⟩
    · change 0 ≤ k.linkErr.toInt
      omega
    · change k.linkErr.toInt < major
      omega
    · simpa using herr
    · simp
  obtain ⟨-, hlink, hline⟩ := hstart.after_runTrace hk n
  rw [Nat.zero_add, Nat.zero_add] at hline
  obtain ⟨-, hmajor, hminor, hlinkSign⟩ := link_eq_iff.1 hlink
  refine ⟨?_, ?_, fun hp => ?_⟩
  · have hq := hline.secondary_steps
    rwa [hmajor, hminor] at hq
  · rw [← hlinkSign]
    exact hline.position
  · obtain ⟨hq, hback⟩ := hline.after_major (hp.trans (congrArg BitVec.toNat hmajor.symm))
    rw [hminor] at hq
    rw [hmajor] at hback
    exact ⟨hq, BitVec.toInt_inj.1 (hback.trans herr.symm)⟩

end Sys2Proof.Machine
end

section
/-!
Proof of the statement about 43_homing_engine.md: REFERENCING as a whole next state with its word (rule R166).
-/

namespace Sys2Proof.Machine

variable {s : State} {c : Chan}

/-! ## REFERENCING (rule R166) -/

/-- Rule R166, `AtHome`: the wake and the settle pulse are one update. -/
theorem exec_referencing_of_sense (hsense : s.senseOf c = true) :
    exec (.referencing c) s =
      .next (s.after c { s.ch c with active := true, position := 0#32, hfirst := true, hstate := true }
        (s.enableEvents c ++ [.emit c .none]) (.ok true 0#32)) := by
  change execReferencing c s = _
  rw [execReferencing, wakeUp_eq_put, sense_put, if_pos hsense, homeFound_eq_put, put_put, respond_put, ch_put,
    ch_put_other]
  rfl

/-- Rule R166, `Seeking`: waking the driver does not change whether the step is due. -/
theorem exec_referencing_of_not_sense (hsense : ¬ s.senseOf c = true) :
    exec (.referencing c) s =
      .next (
        if (s.ch c).hfirst = true ∨ (s.ch c).maxcount.toNat < (s.now - (s.ch c).lastedge).toNat then
          s.after c
            { s.ch c with
              active := true
              position := (s.ch c).position - 1#32
              lastedge := s.now
              hfirst := false
              hstate := false }
            (s.enableEvents c ++ [.emit c .clockwise]) (.ok false 0#32)
        else
          s.after c { s.ch c with active := true, hstate := false } (s.enableEvents c ++ [.emit c .none])
            (.ok false 0#32)) := by
  change execReferencing c s = _
  rw [execReferencing, wakeUp_eq_put, sense_put, if_neg hsense]
  have hback : wrapS 32 ((s.ch c).position.toInt - 1) = (s.ch c).position - 1#32 :=
    wrapS_add_unit (s.ch c).position .clockwise
  have hdue : ((s.ch c).hfirst || s.cadenceDue c) = true ↔
      (s.ch c).hfirst = true ∨ (s.ch c).maxcount.toNat < (s.now - (s.ch c).lastedge).toNat := by
    rw [Bool.or_eq_true, cadenceDue_iff]
  rcases homeSeek_cases (s.put c { s.ch c with active := true } (s.ch (other c)) (s.enableEvents c)) c
    with ⟨hsteps, hput⟩ | ⟨hwaits, hput⟩ <;>
    rw [hput, put_put, respond_put, ch_put, ch_put_other, ← hback]
  · rw [ch_put, cadenceDue_put] at hsteps
    rw [if_pos (hdue.1 hsteps)]
    rfl
  · rw [ch_put, cadenceDue_put] at hwaits
    rw [if_neg (mt hdue.2 (Bool.eq_false_iff.1 hwaits))]
    rfl

/-- Settles O34: the sense input decides between the two states of rule R165, and REFERENCING has no operand. -/
theorem referencingSeeksUntilTheSenseInputAsserts : Obligations.ReferencingSeeksUntilTheSenseInputAsserts := by
  intro c s k
  refine ⟨encodedAs_fields rfl, ?_⟩
  by_cases hsense : s.senseOf c = true
  · rw [if_pos hsense]
    exact exec_referencing_of_sense hsense
  · rw [if_neg hsense]
    exact exec_referencing_of_not_sense hsense

end Sys2Proof.Machine
end

section
/-!
Proofs of the statements about 44_config_and_access.md: the conversions of rules R176 and R177, and the setters, NOP,
RDREG and WRPOS as whole next states with their words.
-/

namespace Sys2Proof.Machine

/-! ## The conversions (rules R175 to R177) -/

/-- Settles O36: the quotient falls as its divisor grows, and the clamp is monotone. -/
theorem countOfIsTheClampedQuotient : Obligations.CountOfIsTheClampedQuotient := by
  intro rpm spr hrpm hspr
  refine ⟨toNat_countOf_platform hrpm hspr, fun rpm' hle => ?_⟩
  rw [toNat_countOf_platform (hrpm.trans hle) hspr, toNat_countOf_platform hrpm hspr]
  have hq : 60000000 / (rpm'.toNat * spr.toNat) ≤ 60000000 / (rpm.toNat * spr.toNat) :=
    Nat.div_le_div_left (Nat.mul_le_mul_right _ hle) (Nat.mul_pos hrpm hspr)
  exact max_le_max_left 1 (min_le_min_left _ hq)

/-- Rule R177 on this platform, whose constant is 54837120000000. -/
theorem toNat_zeroCountOf_platform {spr accel : U32} (hs : 1 ≤ spr.toNat) (ha : 1 ≤ accel.toNat) :
    (Params.platform.zeroCountOf spr accel).toNat =
      max 1 (min (2 ^ 32 - 1) (isqrt (54837120000000 / (spr.toNat * accel.toNat)))) := by
  rw [platform_zeroCountOf, referenceZeroCountOf, if_neg (not_or.2 ⟨one_le_toNat.1 hs, one_le_toNat.1 ha⟩),
    toNat_clampCount (by decide), zeroCountScale_platform]

/-- Settles O37: the root is `isqrt` of the quotient. -/
theorem zeroCountOfIsTheClampedFloorRoot : Obligations.ZeroCountOfIsTheClampedFloorRoot := by
  intro spr accel hs ha
  obtain ⟨hle, hlt⟩ := isqrt_spec (54837120000000 / (spr.toNat * accel.toNat))
  exact ⟨_, hle, hlt, toNat_zeroCountOf_platform hs ha⟩

/-! ## The setters (rules R178 to R183) -/

/-- Rule R183: a setter whose test is `P` writes the derived registers under `P` and none otherwise. -/
theorem configure_eq_after {P : Prop} [Decidable P] {accepts : Bool} (h : accepts = true ↔ P) (c : Chan)
    (k : Channel 32 64) (s : State) :
    configure c accepts k s =
      .next (s.after c (if P then derive Params.platform k else s.ch c) [] (.ok false 0#32)) := by
  rcases configure_cases c accepts k s with ⟨hyes, e⟩ | ⟨hno, e⟩ <;> rw [e]
  · rw [if_pos (h.1 hyes)]
  · rw [if_neg (mt h.2 (Bool.eq_false_iff.1 hno))]

section Setters

variable (c : Chan) (v : U32) (s : State)

theorem exec_setspr :
    exec (.setspr c v) s =
      .next (s.after c (if v ≠ 0#32 then derive Params.platform { s.ch c with cfgSpr := v } else s.ch c) []
        (.ok false 0#32)) := by
  change execSetspr c v s = _
  rw [execSetspr, unsignedOperand_platform, configure_eq_after bne_iff_ne]

theorem exec_setminrpm :
    exec (.setminrpm c v) s =
      .next (s.after c
        (if v ≠ 0#32 ∧ v.toNat < (s.ch c).cfgMaxrpm.toNat then derive Params.platform { s.ch c with cfgMinrpm := v }
          else s.ch c) [] (.ok false 0#32)) := by
  change execSetminrpm c v s = _
  have htest : (v != 0#32 && decide (v.toNat < (s.ch c).cfgMaxrpm.toNat)) = true ↔
      v ≠ 0#32 ∧ v.toNat < (s.ch c).cfgMaxrpm.toNat := by
    rw [Bool.and_eq_true, bne_iff_ne, decide_eq_true_iff]
  rw [execSetminrpm, unsignedOperand_platform, configure_eq_after htest]

theorem exec_setmaxrpm :
    exec (.setmaxrpm c v) s =
      .next (s.after c
        (if (s.ch c).cfgMinrpm.toNat < v.toNat then derive Params.platform { s.ch c with cfgMaxrpm := v } else s.ch c)
        [] (.ok false 0#32)) := by
  change execSetmaxrpm c v s = _
  rw [execSetmaxrpm, unsignedOperand_platform, configure_eq_after decide_eq_true_iff]

theorem exec_setaccel :
    exec (.setaccel c v) s =
      .next (s.after c
        (if v ≠ 0#32 ∧ (s.ch c).direction = .none then derive Params.platform { s.ch c with cfgAccel := v }
          else s.ch c) [] (.ok false 0#32)) := by
  change execSetaccel c v s = _
  have htest : (v != 0#32 && (s.ch c).direction == .none) = true ↔ v ≠ 0#32 ∧ (s.ch c).direction = .none := by
    rw [Bool.and_eq_true, bne_iff_ne, beq_iff_eq]
  rw [execSetaccel, unsignedOperand_platform, configure_eq_after htest]

end Setters

/-- Settles O35: the update of the statement is `derive`. -/
theorem settersAcceptOnlyLegalValues : Obligations.SettersAcceptOnlyLegalValues := fun c v s =>
  ⟨encodedAs_fields rfl, exec_setspr c v s, encodedAs_fields rfl, exec_setminrpm c v s,
    encodedAs_fields rfl, exec_setmaxrpm c v s, encodedAs_fields rfl, exec_setaccel c v s⟩

/-! ## NOP (rule R184) -/

theorem exec_nop (c : Chan) (s : State) : exec (.nop c) s = .next (s.after c (s.ch c) [] (.ok false 0#32)) :=
  congrArg Host.Outcome.next (respond_eq_after s c false 0#32)

/-- Settles O38: NOP only responds, and every field of its word on channel 0 is 0. -/
theorem nopOnlyAnswers : Obligations.NopOnlyAnswers :=
  ⟨fun c s => ⟨encodedAs_fields rfl, exec_nop c s⟩, decode_of_encode_eq rfl rfl⟩

/-! ## RDREG (rules R185 and R187) -/

theorem exec_rdreg_of_some {c : Chan} {s : State} {i : BitVec 8} {v : U32} (h : (s.ch c).regWords[i.toNat]? = some v) :
    exec (.rdreg c i) s = .next (s.after c (s.ch c) [] (.ok false v)) := by
  change execRdreg c i s = _
  rw [execRdreg, Channel.regRead, h, ← respond_eq_after]

theorem exec_rdreg_of_none {c : Chan} {s : State} {i : BitVec 8} (h : (s.ch c).regWords[i.toNat]? = none) :
    exec (.rdreg c i) s = .next (s.illegal .regindex) := by
  change execRdreg c i s = _
  rw [execRdreg, Channel.regRead, h]

theorem bitWord_eq_ite (b : Bool) : bitWord b = if b then 1#32 else 0#32 := by cases b <;> rfl

/-- Rule R185, the indices 23 and 24: a half of a 64-bit register is its low bits after a shift. -/
theorem extractLsb'_eq_setWidth_ushiftRight {n : Nat} (x : BitVec n) (start len : Nat) :
    x.extractLsb' start len = (x >>> start).setWidth len :=
  BitVec.eq_of_toNat_eq (by rw [BitVec.extractLsb'_toNat, BitVec.toNat_setWidth, BitVec.toNat_ushiftRight])

/-- Settles O39: the words of the statement are `regWords`, which has 28 entries. -/
theorem rdregReturnsTheIndexedRegister : Obligations.RdregReturnsTheIndexedRegister := by
  intro c i s k bit code words
  have hcode (d : Dir) : d.code.setWidth 32 = code d := by cases d <;> rfl
  have hbit (b : Bool) : bitWord b = bit b := bitWord_eq_ite b
  have hwords : k.regWords = words := by
    simp only [Channel.regWords, signedWord_platform, unsignedWord_platform, linkErrPattern_platform, hcode, hbit,
      extractLsb'_eq_setWidth_ushiftRight, BitVec.ushiftRight_zero, words]
  refine ⟨fun hi => encodedAs_fields (decide_eq_true hi), fun v hv => exec_rdreg_of_some ?_,
    fun hi => exec_rdreg_of_none ?_, rfl⟩
  · exact (congrArg (·[i.toNat]?) hwords).trans hv
  · exact List.getElem?_eq_none hi

/-! ## WRPOS (rule R188) -/

theorem exec_wrpos (c : Chan) (v : S32) (s : State) :
    exec (.wrpos c v) s = .next (s.after c { s.ch c with position := v } [] (.ok false 0#32)) := by
  change execWrpos c v s = _
  rw [execWrpos, signedOperand_platform, respond_setCh]

/-- Settles O41: `exec_wrpos`. -/
theorem wrposWritesOnlyPosition : Obligations.WrposWritesOnlyPosition :=
  fun c v s => ⟨encodedAs_fields rfl, exec_wrpos c v s⟩

end Sys2Proof.Machine
end

section
/-!
Proofs of the statements about 60_exceptions.md: the causes of an illegal command word (rules R202 and R204), what an
illegal command does (rule R203), that every legal command completes (rule R200), and what lowers the driver enable
(rule R213).
-/

namespace Sys2Proof

/-! ## Why the decoder rejects a word (rules R202 and R204) -/

/-- Rule R204: the first check a word fails, after those it passes, with the cause reported for it. -/
inductive Rejected (w : BitVec 64) : IllegalCause → Prop
  | opcode (hop : Opcode.ofByte (fieldOp w) = none) : Rejected w .opcode
  | channel {op : Opcode} (hop : Opcode.ofByte (fieldOp w) = some op)
      (hch : (chanOfByte (fieldCh w) : Option Chan) = none) : Rejected w .channel
  | reserved {op : Opcode} {c : Chan} (hop : Opcode.ofByte (fieldOp w) = some op)
      (hch : chanOfByte (fieldCh w) = some c) (hreserved : reservedBitSet op w = true) : Rejected w .reserved
  | operand {op : Opcode} {c : Chan} {cause : IllegalCause} (hop : Opcode.ofByte (fieldOp w) = some op)
      (hch : chanOfByte (fieldCh w) = some c) (hreserved : reservedBitSet op w = false)
      (hvalue : (op.assemble c (fieldArg w) (fieldImm w)).illegalOperand = some cause) : Rejected w cause

theorem decode_error_iff (w : BitVec 64) (cause : IllegalCause) : decode w = .error cause ↔ Rejected w cause := by
  constructor
  · intro h
    unfold decode at h
    split at h
    next hop =>
      cases h
      exact .opcode hop
    next op hop =>
      split at h
      next hch =>
        cases h
        exact .channel hop hch
      next c hch =>
        split at h
        next hreserved =>
          cases h
          exact .reserved hop hch hreserved
        next hreserved =>
          split at h
          next cause hvalue =>
            cases h
            exact .operand hop hch (Bool.eq_false_iff.2 hreserved) hvalue
          next => cases h
  · intro h
    cases h with
    | opcode hop => simp [decode, hop]
    | channel hop hch => simp [decode, hop, hch]
    | reserved hop hch hreserved => simp [decode, hop, hch, hreserved]
    | operand hop hch hreserved hvalue => simp [decode, hop, hch, hreserved, hvalue]

/-! ## The conditions of the causes on the fields of the word (rule R202) -/

theorem exists_ofByte_iff (b : BitVec 8) : (∃ op, Opcode.ofByte b = some op) ↔ ∃ op : Opcode, op.byte = b :=
  exists_congr fun op => (ofByte_eq_some_iff b op).trans eq_comm

theorem exists_chanOfByte_iff_lt (b : BitVec 8) : (∃ c : Chan, chanOfByte b = some c) ↔ b.toNat < 2 := by
  rw [← Option.ne_none_iff_exists', ne_eq, chanOfByte_eq_none_iff, Nat.not_le]

theorem reservedBitSet_iff (op : Opcode) (w : BitVec 64) :
    reservedBitSet op w = true ↔
      fieldRsv w ≠ 0#8 ∨ fieldArg w &&& op.argForm.unusedBits ≠ 0#8 ∨ (op.usesImm = false ∧ fieldImm w ≠ 0#32) := by
  simp [reservedBitSet, or_assoc]

/-- Rule R202, causes 4 and 5: the operand checks on the row and the `ARG` field. -/
theorem illegalOperand_assemble_iff (op : Opcode) (c : Chan) (arg : BitVec 8) (imm : BitVec 32) (cause : IllegalCause) :
    (op.assemble c arg imm).illegalOperand = some cause ↔
      (op = .runconst ∧ arg.extractLsb' 0 2 = 0b10#2 ∧ cause = .direction) ∨
      (op = .rdreg ∧ 27 < arg.toNat ∧ cause = .regindex) := by
  cases op <;> simp [Opcode.assemble, Instr.illegalOperand, eq_comm]

/-- Rule R81: the direction code is all of `ARG` once its unused bits are 0. -/
theorem arg_eq_direction_iff (arg : BitVec 8) :
    arg &&& 0xFC#8 = 0#8 ∧ arg.extractLsb' 0 2 = 0b10#2 ↔ arg = 0b10#8 := by
  revert arg
  decide

section Causes

variable (w : BitVec 64)

theorem decode_error_opcode_iff : decode w = .error .opcode ↔ ∀ op : Opcode, op.byte ≠ fieldOp w := by
  rw [decode_error_iff, ← ofByte_eq_none_iff]
  constructor
  · intro h
    cases h with
    | opcode hop => exact hop
    | operand _ _ _ hvalue => simp [illegalOperand_assemble_iff] at hvalue
  · exact .opcode

theorem decode_error_channel_iff :
    decode w = .error .channel ↔ (∃ op : Opcode, op.byte = fieldOp w) ∧ 2 ≤ (fieldCh w).toNat := by
  rw [decode_error_iff, ← exists_ofByte_iff, ← chanOfByte_eq_none_iff]
  constructor
  · intro h
    cases h with
    | channel hop hch => exact ⟨⟨_, hop⟩, hch⟩
    | operand _ _ _ hvalue => simp [illegalOperand_assemble_iff] at hvalue
  · rintro ⟨⟨op, hop⟩, hch⟩
    exact .channel hop hch

theorem decode_error_reserved_iff :
    decode w = .error .reserved ↔ ∃ op : Opcode, op.byte = fieldOp w ∧ (fieldCh w).toNat < 2 ∧
      (fieldRsv w ≠ 0#8 ∨ fieldArg w &&& op.argForm.unusedBits ≠ 0#8 ∨
        (op.usesImm = false ∧ fieldImm w ≠ 0#32)) := by
  simp only [decode_error_iff, ← exists_chanOfByte_iff_lt, ← reservedBitSet_iff]
  constructor
  · intro h
    cases h with
    | reserved hop hch hreserved => exact ⟨_, byte_of_ofByte hop, ⟨_, hch⟩, hreserved⟩
    | operand _ _ _ hvalue => simp [illegalOperand_assemble_iff] at hvalue
  · rintro ⟨op, hbyte, ⟨c, hch⟩, hreserved⟩
    exact .reserved ((ofByte_eq_some_iff _ _).2 hbyte.symm) hch hreserved

/-- Rule R204: a cause found in the operands, which is reported when no earlier check fails. -/
theorem decode_error_operand_iff {cause : IllegalCause} (hlast : cause = .direction ∨ cause = .regindex) :
    decode w = .error cause ↔
      ∃ op c, Opcode.ofByte (fieldOp w) = some op ∧ chanOfByte (fieldCh w) = some c ∧ reservedBitSet op w = false ∧
        (op.assemble c (fieldArg w) (fieldImm w)).illegalOperand = some cause := by
  rw [decode_error_iff]
  constructor
  · intro h
    cases h with
    | operand hop hch hreserved hvalue => exact ⟨_, _, hop, hch, hreserved, hvalue⟩
    | opcode | channel | reserved => simp at hlast
  · rintro ⟨op, c, hop, hch, hreserved, hvalue⟩
    exact .operand hop hch hreserved hvalue

theorem decode_error_direction_iff :
    decode w = .error .direction ↔ fieldOp w = 0x23#8 ∧ (fieldCh w).toNat < 2 ∧ fieldRsv w = 0#8 ∧
      fieldArg w = 0b10#8 ∧ fieldImm w = 0#32 := by
  rw [decode_error_operand_iff w (.inl rfl), ← arg_eq_direction_iff, ← exists_chanOfByte_iff_lt]
  simp only [illegalOperand_assemble_iff, ofByte_eq_some_iff, reservedBitSet_eq_false_iff]
  constructor
  · rintro ⟨op, c, hop, hch, ⟨hrsv, harg, himm⟩, ⟨rfl, hd, -⟩ | ⟨-, -, hne⟩⟩
    · exact ⟨hop, ⟨c, hch⟩, hrsv, ⟨harg, hd⟩, himm.resolve_left (by decide)⟩
    · exact absurd hne (by decide)
  · rintro ⟨hop, ⟨c, hch⟩, hrsv, ⟨harg, hd⟩, himm⟩
    exact ⟨.runconst, c, hop, hch, ⟨hrsv, harg, .inr himm⟩, .inl ⟨rfl, hd, trivial⟩⟩

theorem decode_error_regindex_iff :
    decode w = .error .regindex ↔ fieldOp w = 0x60#8 ∧ (fieldCh w).toNat < 2 ∧ fieldRsv w = 0#8 ∧
      27 < (fieldArg w).toNat ∧ fieldImm w = 0#32 := by
  rw [decode_error_operand_iff w (.inr rfl), ← exists_chanOfByte_iff_lt]
  simp only [illegalOperand_assemble_iff, ofByte_eq_some_iff, reservedBitSet_eq_false_iff]
  constructor
  · rintro ⟨op, c, hop, hch, ⟨hrsv, -, himm⟩, ⟨-, -, hne⟩ | ⟨rfl, hx, -⟩⟩
    · exact absurd hne (by decide)
    · exact ⟨hop, ⟨c, hch⟩, hrsv, hx, himm.resolve_left (by decide)⟩
  · rintro ⟨hop, ⟨c, hch⟩, hrsv, hx, himm⟩
    exact ⟨.rdreg, c, hop, hch, ⟨hrsv, BitVec.and_zero, .inr himm⟩, .inr ⟨rfl, hx, trivial⟩⟩

end Causes

/-- Settles O4: one lemma per cause, and the decoder run on the examples. -/
theorem illegalCausesAreReportedInPriorityOrder : Obligations.IllegalCausesAreReportedInPriorityOrder :=
  ⟨fun w => ⟨decode_error_opcode_iff w, decode_error_channel_iff w, decode_error_reserved_iff w,
    decode_error_direction_iff w, decode_error_regindex_iff w⟩, rfl, rfl, rfl, rfl, rfl, rfl⟩

namespace Machine

variable {s : State} {i : Instr} {c : Chan} {k k' o : Channel 32 64} {pre es : List (DriverEvent 2)} {r : Response}

/-! ## An illegal command (rule R203) -/

/-- Settles O9: the step is `Block.State.illegal` on the sampled state, which writes the response only. -/
theorem illegalCommandOnlyAnswersItsCause : Obligations.IllegalCommandOnlyAnswersItsCause :=
  ⟨fun _ _ _ _ hs hp => ⟨_, step_of_decode_error hs hp, rfl, rfl, rfl, rfl, rfl⟩, rfl, rfl, rfl, rfl, rfl⟩

/-! ## Every legal command completes (rule R200) -/

/-- Rule R200: the command answers a next state, with `ERR = 0`. -/
def Completes (i : Instr) (s : State) : Prop := ∃ t b v, exec i s = .next t ∧ t.resp = some (.ok b v)

theorem completes_run (c : Chan) (s : State) : Completes (.run c) s := by
  by_cases h : (s.ch c).distance = 0#32 ∧ (s.ch c).direction = .none
  · exact ⟨_, _, _, exec_run_of_atRest h.1 h.2, rfl⟩
  · exact ⟨_, _, _, exec_run_of_not_atRest h, rfl⟩

/-- Rule R128: every code but the reserved one names a direction. -/
theorem completes_runconst {d : BitVec 2} (hd : d ≠ 0b10#2) (c : Chan) (s : State) : Completes (.runconst c d) s := by
  rcases code_cases d with rfl | rfl | rfl | rfl
  · exact ⟨_, _, _, exec_runconst_none c s, rfl⟩
  · exact ⟨_, _, _, exec_runconst_eq_jogPoll (e := .counterClockwise) rfl (by decide) c s, rfl⟩
  · exact absurd rfl hd
  · exact ⟨_, _, _, exec_runconst_eq_jogPoll (e := .clockwise) rfl (by decide) c s, rfl⟩

theorem completes_referencing (c : Chan) (s : State) : Completes (.referencing c) s := by
  by_cases hsense : (wakeUp c s).senseOf c = true
  · exact ⟨_, _, _, if_pos hsense, rfl⟩
  · exact ⟨_, _, _, if_neg hsense, rfl⟩

/-- Rule R185: the indices up to 27 name a register. -/
theorem completes_rdreg {x : BitVec 8} (hx : x.toNat ≤ 27) (c : Chan) (s : State) : Completes (.rdreg c x) s :=
  have hlt : x.toNat < (s.ch c).regWords.length := Nat.lt_succ_of_le hx
  ⟨_, _, _, exec_rdreg_of_some (List.getElem?_eq_getElem hlt), rfl⟩

/-- Settles O12: only RUNCONST and RDREG have an arm that answers an error, which a legal operand does not reach. -/
theorem everyLegalCommandCompletes : Obligations.EveryLegalCommandCompletes := by
  intro i s hwf
  change Completes i s
  cases i with
  | run c => exact completes_run c s
  | runconst c d => exact completes_runconst (bne_iff_ne.1 hwf) c s
  | referencing c => exact completes_referencing c s
  | rdreg c x => exact completes_rdreg (of_decide_eq_true hwf) c s
  | setspr c v => exact ⟨_, _, _, exec_setspr c v s, rfl⟩
  | setminrpm c v => exact ⟨_, _, _, exec_setminrpm c v s, rfl⟩
  | setmaxrpm c v => exact ⟨_, _, _, exec_setmaxrpm c v s, rfl⟩
  | setaccel c v => exact ⟨_, _, _, exec_setaccel c v s, rfl⟩
  | _ => exact ⟨_, _, _, rfl, rfl⟩

/-! ## The driver enable (rule R213) -/

theorem PollEffect.active (h : PollEffect s c k pre k' o es) : k'.active = k.active := by
  obtain ⟨_, _, _, _, _, _, rfl⟩ := h.frame
  rfl

/-- Rules R123 and R213: no command but RELEASE lowers `ACTIVE` of its own channel. -/
theorem Effect.keeps_active (h : Effect s i k o es r) (hi : i ≠ .release i.chan)
    (hon : (s.ch i.chan).active = true) : k.active = true := by
  cases h with
  | accel c b =>
    obtain ⟨_, _, hk⟩ := accelCore_frame b (s.ch c)
    rw [hk]
    exact hon
  | decel c b =>
    obtain ⟨_, _, _, _, hk⟩ := decelCore_frame b (s.ch c)
    rw [hk]
    exact hon
  | runRecomputes _ _ _ _ _ _ hp => rw [hp.active, recompute_active]
  | runCompares _ _ _ _ _ _ hp | schedstep _ _ _ _ hp => exact hp.active.trans hon
  | jogSteps | jogWaits | wakeup | homeFound | homeSteps | homeWaits => rfl
  | release => exact absurd rfl hi
  | _ => exact hon

/-- Rules R153 and R213: no command lowers `ACTIVE` of the channel it does not address. -/
theorem Effect.other_keeps_active (h : Effect s i k o es r) (hon : (s.ch (other i.chan)).active = true) :
    o.active = true := by
  rcases h.other_cases with rfl | ⟨-, -, _, rfl⟩
  · exact hon
  · rfl

/-- Settles O46: with any other command the bit of either channel stays up. -/
theorem onlyReleaseLowersTheDriverEnable : Obligations.OnlyReleaseLowersTheDriverEnable := by
  intro i s t c hx hon hoff
  obtain ⟨k, o, es, r, rfl, h⟩ := exec_effect i s t hx
  rcases eq_or_other i.chan c with rfl | rfl
  · rw [ch_afterBoth] at hoff
    by_contra hi
    exact Bool.false_ne_true (hoff.symm.trans (h.keeps_active hi hon))
  · rw [ch_afterBoth_other] at hoff
    exact absurd (hoff.symm.trans (h.other_keeps_active hon)) Bool.false_ne_true

end Machine

end Sys2Proof
end
